-- ==== Sys2Proof/Word.lean ====
section
/-! DEFINITION. The Word of this hardware (spec/00_scope.md R6): a signed 64-bit two's-complement integer. Every cell,
operand, address, input and output, and `ip`, `rb`, `lo`, `fi`, is one. -/

namespace Sys2Proof

/-- R6: a Word. `w.toInt` is its signed value, `w.toNat` the same bits read without a sign. -/
abbrev Word := BitVec 64

/-- R6: `wrap64 z` is the one Word congruent to the mathematical integer `z` modulo 2^64. -/
def wrap64 (z : Int) : Word := BitVec.ofInt 64 z

end Sys2Proof
end

