-- ==== Sys2Proof/Machine/Flags.lean ====
section
/-! DEFINITION. This hardware has no flags (spec/10_state.md R25): a comparison writes the Word 1 or 0 to memory and a
conditional jump tests a Word. Those conditions are here (spec/44_compare.md R162; spec/43_jumps.md R150, R151). -/

namespace Sys2Proof.Machine

/-- R162: the Word a comparison stores. -/
def boolWord (b : Bool) : Word := if b then 1 else 0

/-- R160, R162: `a < b` on signed integers, exactly. -/
def cmpLt (a b : Word) : Word := boolWord (a.toInt < b.toInt)

/-- R161, R162: equality of all 64 bits. -/
def cmpEq (a b : Word) : Word := boolWord (a.toInt = b.toInt)

/-- R150: "true" is any non-zero Word. -/
def wordTrue (a : Word) : Bool := a.toInt ≠ 0

end Sys2Proof.Machine
end

