-- ==== Sys2Proof/Machine/Alu.lean ====
section
/-! DEFINITION. The integer arithmetic of ADD, MUL, ARB and of every address sum (spec/41_arithmetic.md R132, R133;
spec/20_memory.md R56): the exact result on signed integers, narrowed by `wrap64` at the end. -/

namespace Sys2Proof.Machine

/-- R132: the stored sum is `wrap64(a + b)`. -/
def aluAdd (a b : Word) : Word := wrap64 (a.toInt + b.toInt)

/-- R133: the stored product is `wrap64(a * b)`. -/
def aluMul (a b : Word) : Word := wrap64 (a.toInt * b.toInt)

/-- R56: `addr + k` as an address, for the operand-word address and the sequential advance. -/
def addrPlus (addr : Word) (k : Nat) : Word := wrap64 (addr.toInt + k)

end Sys2Proof.Machine
end

