-- ==== Sys2Proof/Config.lean ====
section
/-! DEFINITION. The open parameters of the hardware (spec/00_scope.md R5; spec/92_eei_decisions.md, "Open parameters in
one place"). The spec leaves each OPEN with a default and says that the model takes it as an argument; a `Config` is that
argument, carried in State because `exec` and `step` take nothing else (log 2). There is no free value: no instruction of
this hardware leaves a result undefined. -/

namespace Sys2Proof

/-- `NEG_ADDR_POLICY` (spec/20_memory.md R55, decision D4). -/
inductive NegAddrPolicy where
  /-- A negative address is a key of memory like any other: the default. -/
  | key
  /-- The model gives an access to a negative address no meaning. -/
  | refuse
deriving DecidableEq, Repr

/-- The open parameters. `none` in a bound means unbounded. -/
structure Config where
  /-- `NEG_ADDR_POLICY`, R55. -/
  negAddr : NegAddrPolicy
  /-- `MEM_CELLS`: the most cells that can be present at once, R53, R57. -/
  memCells : Option Nat
  /-- `PROG_MAX`: the longest program `Construct` takes, R5, decision D6. -/
  progMax : Option Nat
  /-- `INQ_DEPTH`: the most values one `Execute` is given, R5, decision D6. -/
  inqDepth : Option Nat
deriving DecidableEq, Repr

/-- The default of every open parameter (R5): negative addresses are keys, no bound anywhere. -/
def Config.default : Config := { negAddr := .key, memCells := none, progMax := none, inqDepth := none }

end Sys2Proof
end

