-- ==== Sys2Proof/Syntax.lean ====
section
/-! DEFINITION. The instructions (spec/30_encoding.md R84, R86): one constructor for each of the ten rows of
spec/opcode_table.json. An instruction is what `Decode` returns (R91): the opcode with the mode of each operand the opcode
HAS. Operand words are no part of it: the decoder never looks at one (R96); the operand resolver reads them (R110). -/

namespace Sys2Proof

/-- R86: the three addressing modes. The digits 3 to 9 are reserved (R87) and are no mode. -/
inductive AddrMode where
  /-- Mode digit 0. -/
  | position
  /-- Mode digit 1. -/
  | immediate
  /-- Mode digit 2. -/
  | relative
deriving DecidableEq, Repr

/-- R84: the ten instructions, each with the modes of its operands in source order. -/
inductive Instr where
  /-- ADD a, b, dst (R130). -/
  | add (a b dst : AddrMode)
  /-- MUL a, b, dst (R131). -/
  | mul (a b dst : AddrMode)
  /-- IN dst (R140). -/
  | inp (dst : AddrMode)
  /-- OUT a (R141). -/
  | out (a : AddrMode)
  /-- JNZ a, target (R150). -/
  | jnz (a target : AddrMode)
  /-- JZ a, target (R151). -/
  | jz (a target : AddrMode)
  /-- LT a, b, dst (R160). -/
  | lt (a b dst : AddrMode)
  /-- EQ a, b, dst (R161). -/
  | eq (a b dst : AddrMode)
  /-- ARB a (R170). -/
  | arb (a : AddrMode)
  /-- HLT (R171). -/
  | hlt
deriving DecidableEq, Repr

end Sys2Proof
end

