-- ==== Sys2Proof/Machine/State.lean ====
section
/-! DEFINITION. The state of one machine instance (spec/10_state.md R20 to R36) with the host's side of its interface
(spec/46_execution_controller.md R190), and the reasons a step can stop. -/

namespace Sys2Proof.Machine

/-- R29: the execution state, with this spec's fourth value `Faulted`. -/
inductive ExecState where
  /-- Constructed and never yet called, or a call in progress. -/
  | running
  /-- The last call ended at an OUT. -/
  | suspendedOnOutput
  /-- The last call ended at HLT; terminal. -/
  | halted
  /-- The last call ended in a fault; terminal. -/
  | faulted
deriving DecidableEq, Repr

/-- R210: the five fault kinds. "No fault latched" (code 0) is `none` of `Option FaultKind`. -/
inductive FaultKind where
  /-- Code 1: a negative instruction word, or an opcode that is none of the ten. -/
  | invalidOpcode
  /-- Code 2: IN with an empty input queue. -/
  | inputUnderflow
  /-- Code 3: a read of an address that is not present. -/
  | memoryFault
  /-- Code 4: a mode digit 3 to 9 in a used position. -/
  | reservedMode
  /-- Code 5: a write that would make more than MEM_CELLS cells present. -/
  | capacityFault
deriving DecidableEq, Repr

/-- R182, R184: the result of one `Execute` call. `value` is `none` where no output has ever been made (`lov = 0`): the
spec gives that value no meaning ("or makes `value` optional", spec/93_implementation_defined.md U7; log 5). -/
inductive CallResult where
  /-- `Ok(value, halted)`. -/
  | ok (value : Option Word) (halted : Bool)
  /-- `Fault(kind, info)`. -/
  | fault (kind : FaultKind) (info : Word)
deriving DecidableEq, Repr

/-- R225: what a `Peek` asks for. -/
inductive PeekItem where
  /-- `present(addr)` and `M[addr]`. -/
  | cell (addr : Word)
  | ip
  | rb
  | es
  | lo
  | lov
  | fk
  | fi
deriving DecidableEq, Repr

/-- R225: what a `Peek` is answered. -/
inductive PeekValue where
  /-- `none`: the cell is not present. -/
  | cell (content : Option Word)
  | word (w : Word)
  | execState (e : ExecState)
  | flag (b : Bool)
  | faultKind (k : Option FaultKind)
deriving DecidableEq, Repr

/-- R190: the three transactions of the host. -/
inductive Transaction where
  /-- `Construct(program)`, R250. -/
  | construct (program : List Word)
  /-- `Execute(inputs)`, R182. -/
  | execute (inputs : List Word)
  /-- `Peek`, R225. -/
  | peek (item : PeekItem)
deriving DecidableEq, Repr

/-- What the machine answers a transaction. -/
inductive Response where
  /-- `Construct` was done. -/
  | constructed
  /-- An `Execute` call ended with this result. -/
  | returned (r : CallResult)
  /-- A `Peek` was answered. -/
  | peeked (v : PeekValue)
  /-- The interface refused the transaction; it had no effect (R190, decision D6). -/
  | refused
deriving DecidableEq, Repr

/-- Why a step stops. An architectural fault of R210 is none of these: the spec describes the state it leaves, so it is a
next state (R218). -/
inductive Fault where
  /-- Raised by every memory access, the fetch included, to a negative address when `NEG_ADDR_POLICY = refuse`: the model
  gives it no meaning (spec/20_memory.md R55; U2 "stuck"). Safe: never raised under the default policy. -/
  | negativeAddress (addr : Word)
  /-- Raised by `step` when a call is in progress and `es` is not `Running`: `Step()` "is defined when a call is in
  progress and `es = Running`" (R180). Safe: no reachable state is one. -/
  | stepUndefined
deriving DecidableEq, Repr

/-- Why an instruction has no meaning. No arm of `exec` answers it: all ten have one. -/
inductive Refusal where
  /-- Would be raised by an arm of `exec` that has no meaning yet; safe. None is. -/
  | notModelled (mnemonic : String)
deriving DecidableEq, Repr

/-- R33, R51: memory is a partial map from addresses to Words, held as the list of its present cells. A cell's key is its
address read without a sign (`addr.toNat`); a cell that is not listed is not present, and reading it faults (R52), so no
entry can equal what an unlisted address reads as. -/
abbrev Memory := List (Nat × Word)

/-- The canonical form: addresses strictly rising, each the bits of a Word. -/
abbrev Memory.wf (m : Memory) : Prop := m.Pairwise (fun c d => c.1 < d.1) ∧ ∀ c ∈ m, c.1 < 2 ^ 64

/-- R20: the state of one machine instance. `busy`, `pending` and `responses` are the model's own side of the interface
(log 3); `cfg` carries the open parameters (log 2). -/
structure State where
  /-- The open parameters; fixed for the machine. -/
  cfg : Config
  /-- `M` (R32, R33, R50, R51). -/
  mem : Memory
  /-- The instruction pointer (R22). -/
  ip : Word
  /-- The relative base (R27). -/
  rb : Word
  /-- The execution state (R29). -/
  es : ExecState
  /-- The last-output slot (R30). -/
  lo : Word
  /-- `lo` holds an output (R30). -/
  lov : Bool
  /-- The input queue, front first (R28). -/
  inq : List Word
  /-- The fault kind latched; `none` is code 0 (R30, R210). -/
  fk : Option FaultKind
  /-- The fault information Word (R30, R210). -/
  fi : Word
  /-- An `Execute` call is in progress (R180, R190; signal `busy` of R191). -/
  busy : Bool
  /-- The transactions the host will issue, oldest first, each when the one before it has ended. -/
  pending : List Transaction
  /-- The responses the host has had, oldest first: the observable record of R193. -/
  responses : List Response
deriving DecidableEq, Repr

/-- The machine right after reset. Reset is construction (R250) and needs a program; this is `Construct([])`, which R254
accepts: no cell is present (log 4). Every value is the one of R35. A program comes by a `construct` transaction. -/
def State.reset : State where
  cfg := Config.default
  mem := []
  ip := 0
  rb := 0
  es := .running
  lo := 0
  lov := false
  inq := []
  fk := none
  fi := 0
  busy := false
  pending := []
  responses := []

end Sys2Proof.Machine
end

