-- ==== Sys2Proof/WellFormed.lean ====
section
/-! DEFINITION. What is well formed before the machine sees it: an instruction word (spec/30_encoding.md R82, R87, R88),
a program given to `Construct` and a batch given to `Execute` (decision D6). An `Instr` needs no check of its own: its
modes are an `AddrMode`, which has the three legal digits and no other. The checks on an instruction word are written here
without the decoder, so that "the decoder accepts exactly the well-formed words" says something. -/

namespace Sys2Proof

/-- R84: the legal opcodes. -/
def opcodeLegal (op : Nat) : Bool := op ∈ [1, 2, 3, 4, 5, 6, 7, 8, 9, 99]

/-- R84: the opcode has an operand in position `k` (1, 2 or 3). -/
def opcodeHasOperand (op k : Nat) : Bool :=
  match k with
  | 1 => op ∈ [1, 2, 3, 4, 5, 6, 7, 8, 9]
  | 2 => op ∈ [1, 2, 5, 6, 7, 8]
  | 3 => op ∈ [1, 2, 7, 8]
  | _ => false

/-- R81: the mode digit of position `k`, `mode1` at 10^2, `mode2` at 10^3, `mode3` at 10^4. -/
def modeDigit (n k : Nat) : Nat := n / 10 ^ (k + 1) % 10

/-- R90: the Word is the instruction word of one of the ten instructions: not negative (R82), a legal opcode (R88), and
no reserved mode digit in the position of an operand the opcode has (R87). -/
def instrWordWf (raw : Word) : Bool :=
  0 ≤ raw.toInt && opcodeLegal (raw.toNat % 100) &&
    [1, 2, 3].all fun k => !opcodeHasOperand (raw.toNat % 100) k || modeDigit raw.toNat k ≤ 2

/-- `n` is at most an open bound. -/
def withinBound (n : Nat) : Option Nat → Bool
  | none => true
  | some b => n ≤ b

/-- R250: `Construct` takes a program of at most min(PROG_MAX, MEM_CELLS) Words. It is placed at addresses 0 to len-1,
which are Words, so it has at most 2^63 (DEDUCED, log 6). -/
def programWf (cfg : Config) (program : List Word) : Bool :=
  withinBound program.length cfg.progMax && withinBound program.length cfg.memCells && program.length ≤ 2 ^ 63

/-- R182: `Execute` takes a batch of at most INQ_DEPTH Words. -/
def batchWf (cfg : Config) (inputs : List Word) : Bool := withinBound inputs.length cfg.inqDepth

end Sys2Proof
end

