-- ==== Sys2Proof/Machine/Ops.lean ====
section
/-! DEFINITION. The named operations over State: memory (spec/20_memory.md R52, R53), the updates of single elements, the
end of a call and taking a fault (spec/46_execution_controller.md R182; spec/60_exceptions.md R218). -/

namespace Sys2Proof.Machine

/-- The five kinds' codes (R210); code 0 means that no fault is latched. -/
def faultCode : Option FaultKind → BitVec 3
  | none => 0
  | some .invalidOpcode => 1
  | some .inputUnderflow => 2
  | some .memoryFault => 3
  | some .reservedMode => 4
  | some .capacityFault => 5

/-- R29: the codes of the execution states on the status port. -/
def ExecState.code : ExecState → BitVec 2
  | .running => 0
  | .suspendedOnOutput => 1
  | .halted => 2
  | .faulted => 3

/-- What abandons an instruction. -/
inductive Stop where
  /-- `raise kind(info)` (R11): the machine takes a fault. -/
  | raise (kind : FaultKind) (info : Word)
  /-- The model gives the move no meaning. -/
  | stuck (reason : Fault)
deriving DecidableEq, Repr

/-- R181: how an instruction that raises nothing ends. -/
inductive Completion where
  | proceed
  | yield
  | halt
deriving DecidableEq, Repr

/-! ### Memory -/

/-- The content of a key, `none` when it is not present. -/
def Memory.lookup : Memory → Nat → Option Word
  | [], _ => none
  | (k, v) :: m, a => if k = a then some v else Memory.lookup m a

/-- Sets the content of a key, creating the cell where it belongs when it is not present. -/
def Memory.store : Memory → Nat → Word → Memory
  | [], a, v => [(a, v)]
  | (k, u) :: m, a, v =>
    if a < k then (a, v) :: (k, u) :: m
    else if a = k then (a, v) :: m
    else (k, u) :: Memory.store m a v

/-- R35: a program's words at ascending addresses. -/
def Memory.load (a : Nat) : List Word → Memory
  | [] => []
  | p :: ps => (a, p) :: Memory.load (a + 1) ps

/-- R9: the content of the cell at an address; `none` when `present(addr)` is false. -/
def State.cell (s : State) (addr : Word) : Option Word := s.mem.lookup addr.toNat

/-- R55: the policy refuses an access to this address. -/
def Config.refuses (c : Config) (addr : Word) : Bool := c.negAddr = .refuse && addr.toInt < 0

/-- R53: one more present cell would exceed MEM_CELLS. -/
def State.full (s : State) : Bool := !withinBound (s.mem.length + 1) s.cfg.memCells

/-! ### Updates of single elements -/

def State.setMem (s : State) (m : Memory) : State := { s with mem := m }
def State.setIp (s : State) (a : Word) : State := { s with ip := a }
def State.setRb (s : State) (a : Word) : State := { s with rb := a }
def State.setInq (s : State) (q : List Word) : State := { s with inq := q }

/-- R141: an output overwrites the slot and marks it valid. -/
def State.setOutput (s : State) (v : Word) : State := { s with lo := v, lov := true }

/-- R23: past an instruction of `len` cells. -/
def State.advance (s : State) (len : Nat) : State := s.setIp (addrPlus s.ip len)

/-- A response to the host. -/
def State.respond (s : State) (r : Response) : State := { s with responses := s.responses ++ [r] }

/-! ### Memory primitives -/

/-- R52: `MemRead(addr, 1)`. -/
def memRead (s : State) (addr : Word) : Except Stop Word :=
  if Config.refuses s.cfg addr then .error (.stuck (.negativeAddress addr))
  else match s.cell addr with
    | some v => .ok v
    | none => .error (.raise .memoryFault addr)

/-- R53: `MemWrite(addr, 1, v)`. -/
def memWrite (s : State) (addr v : Word) : Except Stop State :=
  if Config.refuses s.cfg addr then .error (.stuck (.negativeAddress addr))
  else if (s.cell addr).isNone && s.full then .error (.raise .capacityFault addr)
  else .ok (s.setMem (s.mem.store addr.toNat v))

/-! ### The end of a call -/

/-- R184: the `value` of a result: `lo`, or nothing where no output has been made (U7, log 5). -/
def State.value (s : State) : Option Word := if s.lov then some s.lo else none

/-- R182: the end of a call: the new execution state, the queue emptied, the result returned. -/
def State.endCall (s : State) (e : ExecState) (r : CallResult) : State :=
  { s with es := e, inq := [], busy := false, responses := s.responses ++ [.returned r] }

/-- R182 `Yield`: the call ends at an OUT with `Ok(lo, false)`. -/
def State.yieldCall (s : State) : State := s.endCall .suspendedOnOutput (.ok s.value false)

/-- R182 `Halt`: the call ends at HLT with `Ok(lo, true)`. -/
def State.haltCall (s : State) : State := s.endCall .halted (.ok s.value true)

/-- TAKING A FAULT (R218, R182): `fk` and `fi` latched, `es` Faulted, the queue emptied, the call ended with
`Fault(fk, fi)`; `M`, `ip`, `rb`, `lo`, `lov` unchanged. There is no return from it (R219): only `Construct` leaves
`Faulted`. -/
def State.takeFault (s : State) (kind : FaultKind) (info : Word) : State :=
  State.endCall { s with fk := some kind, fi := info } .faulted (.fault kind info)

/-- R181, R182: what an instruction's run makes of the state `s` it started in. A run that raised leaves no partial
effect: the fault is taken from `s`. -/
def settle (s : State) : Except Stop (Completion × State) → Host.Outcome State Fault Refusal
  | .ok (.proceed, t) => .next t
  | .ok (.yield, t) => .next t.yieldCall
  | .ok (.halt, t) => .next t.haltCall
  | .error (.raise kind info) => .next (s.takeFault kind info)
  | .error (.stuck reason) => .fault reason

end Sys2Proof.Machine
end

