-- ==== Sys2Proof/Machine/Operands.lean ====
section
/-! DEFINITION. The operand resolver (spec/40_operand_resolver.md R110 to R115) and the shapes the instructions share.
Resolving an operand changes no state (R114). -/

namespace Sys2Proof.Machine

/-- R110: `OperandWord(k)`, the word at `wrap64(ip + k)`. -/
def operandWord (s : State) (k : Nat) : Except Stop Word := memRead s (addrPlus s.ip k)

/-- R111: `ReadVal(k, m)`. -/
def readVal (s : State) (k : Nat) (m : AddrMode) : Except Stop Word := do
  let w ← operandWord s k
  match m with
  | .position => memRead s w
  | .immediate => .ok w
  | .relative => memRead s (aluAdd s.rb w)

/-- R112: `WriteAddr(k, m)`. Mode 1 on a destination acts as mode 0 (R89). -/
def writeAddr (s : State) (k : Nat) (m : AddrMode) : Except Stop Word := do
  let w ← operandWord s k
  match m with
  | .position => .ok w
  | .immediate => .ok w
  | .relative => .ok (aluAdd s.rb w)

/-- The shape of ADD, MUL, LT and EQ (R130, R131, R160, R161): a, b, dst resolved in order, `f a b` written to dst. -/
def storeBinary (f : Word → Word → Word) (m1 m2 m3 : AddrMode) (s : State) : Except Stop (Completion × State) := do
  let a ← readVal s 1 m1
  let b ← readVal s 2 m2
  let d ← writeAddr s 3 m3
  let t ← memWrite s d (f a b)
  .ok (.proceed, t.advance 4)

/-- The shape of JNZ and JZ (R150, R151): both operands resolved, taken or not; no check of the target. -/
def jumpIf (cond : Word → Bool) (m1 m2 : AddrMode) (s : State) : Except Stop (Completion × State) := do
  let a ← readVal s 1 m1
  let t ← readVal s 2 m2
  .ok (.proceed, if cond a then s.setIp t else s.advance 3)

end Sys2Proof.Machine
end

