-- ==== Sys2Proof/Machine/Arithmetic.lean ====
section
/-! DEFINITION. ADD and MUL (spec/41_arithmetic.md R130, R131). -/

namespace Sys2Proof.Machine

/-- R130: `mem[dst] = wrap64(a + b)`. -/
def execAdd (m1 m2 m3 : AddrMode) (s : State) : Host.Outcome State Fault Refusal :=
  settle s (storeBinary aluAdd m1 m2 m3 s)

/-- R131: `mem[dst] = wrap64(a * b)`. -/
def execMul (m1 m2 m3 : AddrMode) (s : State) : Host.Outcome State Fault Refusal :=
  settle s (storeBinary aluMul m1 m2 m3 s)

end Sys2Proof.Machine
end

