-- ==== Sys2Proof/Machine/BaseHalt.lean ====
section
/-! DEFINITION. ARB and HLT (spec/45_base_and_halt.md R170, R171). -/

namespace Sys2Proof.Machine

/-- R170 up to its outcome: the operand is read with the old base, then added to it. -/
def adjustBase (m1 : AddrMode) (s : State) : Except Stop (Completion × State) := do
  let a ← readVal s 1 m1
  .ok (.proceed, (s.setRb (aluAdd s.rb a)).advance 2)

/-- R170: `rb <- wrap64(rb + a)`. -/
def execArb (m1 : AddrMode) (s : State) : Host.Outcome State Fault Refusal :=
  settle s (adjustBase m1 s)

/-- R171: the outcome `Halt`; `ip` stays at the HLT instruction word. -/
def execHlt (s : State) : Host.Outcome State Fault Refusal :=
  settle s (.ok (.halt, s))

end Sys2Proof.Machine
end

