-- ==== Sys2Proof/Machine/Compare.lean ====
section
/-! DEFINITION. LT and EQ (spec/44_compare.md R160, R161). -/

namespace Sys2Proof.Machine

/-- R160: `mem[dst] = 1 if a < b else 0`. -/
def execLt (m1 m2 m3 : AddrMode) (s : State) : Host.Outcome State Fault Refusal :=
  settle s (storeBinary cmpLt m1 m2 m3 s)

/-- R161: `mem[dst] = 1 if a == b else 0`. -/
def execEq (m1 m2 m3 : AddrMode) (s : State) : Host.Outcome State Fault Refusal :=
  settle s (storeBinary cmpEq m1 m2 m3 s)

end Sys2Proof.Machine
end

