-- ==== Sys2Proof/Machine/InputOutput.lean ====
section
/-! DEFINITION. IN and OUT (spec/42_input_output.md R140, R141). -/

namespace Sys2Proof.Machine

/-- R140 up to its outcome: the address, then the queue check, then the dequeue and the write. -/
def inputTo (m1 : AddrMode) (s : State) : Except Stop (Completion × State) := do
  let d ← writeAddr s 1 m1
  match s.inq with
  | [] => .error (.raise .inputUnderflow s.ip)
  | v :: rest =>
    let t ← memWrite (s.setInq rest) d v
    .ok (.proceed, t.advance 2)

/-- R140: `mem[dst] = dequeue(inputs)`. -/
def execIn (m1 : AddrMode) (s : State) : Host.Outcome State Fault Refusal :=
  settle s (inputTo m1 s)

/-- R141 up to its outcome `Yield`. -/
def outputFrom (m1 : AddrMode) (s : State) : Except Stop (Completion × State) := do
  let a ← readVal s 1 m1
  .ok (.yield, (s.setOutput a).advance 2)

/-- R141: emit `a` and suspend. -/
def execOut (m1 : AddrMode) (s : State) : Host.Outcome State Fault Refusal :=
  settle s (outputFrom m1 s)

end Sys2Proof.Machine
end

