-- ==== Sys2Proof/Machine/Jumps.lean ====
section
/-! DEFINITION. JNZ and JZ (spec/43_jumps.md R150, R151). -/

namespace Sys2Proof.Machine

/-- R150: jump if `a != 0`. -/
def execJnz (m1 m2 : AddrMode) (s : State) : Host.Outcome State Fault Refusal :=
  settle s (jumpIf wordTrue m1 m2 s)

/-- R151: jump if `a == 0`. -/
def execJz (m1 m2 : AddrMode) (s : State) : Host.Outcome State Fault Refusal :=
  settle s (jumpIf (fun a => !wordTrue a) m1 m2 s)

end Sys2Proof.Machine
end

