-- ==== Sys2Proof/Decode.lean ====
section
/-! DEFINITION. The decoder (spec/30_encoding.md R81 to R91), total on Words, and after it the encoder, written from the
same table. The encoding is decimal: fields are decimal digits of a non-negative instruction word. -/

namespace Sys2Proof

/-- R91: why a Word is no instruction. -/
inductive DecodeFault where
  /-- A negative word (R82) or an opcode that is none of the ten (R88). -/
  | invalidOpcode
  /-- A mode digit 3 to 9 in the position of an operand the opcode has (R87). -/
  | reservedMode
deriving DecidableEq, Repr

/-- R86, R87: the mode a digit stands for. -/
def modeOfDigit : Nat → Option AddrMode
  | 0 => some .position
  | 1 => some .immediate
  | 2 => some .relative
  | _ => none

/-- R86: the digit of a mode. -/
def AddrMode.digit : AddrMode → Nat
  | .position => 0
  | .immediate => 1
  | .relative => 2

/-- An instruction with one operand, R87 checked on its one mode digit. -/
def decodeOne (mk : AddrMode → Instr) (m1 : Option AddrMode) : Except DecodeFault Instr :=
  match m1 with
  | some a => .ok (mk a)
  | none => .error .reservedMode

/-- An instruction with two operands, R87 checked on two mode digits. -/
def decodeTwo (mk : AddrMode → AddrMode → Instr) (m1 m2 : Option AddrMode) : Except DecodeFault Instr :=
  match m1, m2 with
  | some a, some b => .ok (mk a b)
  | _, _ => .error .reservedMode

/-- An instruction with three operands, R87 checked on three mode digits. -/
def decodeThree (mk : AddrMode → AddrMode → AddrMode → Instr) (m1 m2 m3 : Option AddrMode) :
    Except DecodeFault Instr :=
  match m1, m2, m3 with
  | some a, some b, some c => .ok (mk a b c)
  | _, _, _ => .error .reservedMode

/-- R91 on a non-negative word: the fields by div and mod, the opcode before the mode digits, digits that no field uses
ignored (R83). -/
def decodeFields (n : Nat) : Except DecodeFault Instr :=
  let m1 := modeOfDigit (n / 100 % 10)
  let m2 := modeOfDigit (n / 1000 % 10)
  let m3 := modeOfDigit (n / 10000 % 10)
  match n % 100 with
  | 1 => decodeThree .add m1 m2 m3
  | 2 => decodeThree .mul m1 m2 m3
  | 3 => decodeOne .inp m1
  | 4 => decodeOne .out m1
  | 5 => decodeTwo .jnz m1 m2
  | 6 => decodeTwo .jz m1 m2
  | 7 => decodeThree .lt m1 m2 m3
  | 8 => decodeThree .eq m1 m2 m3
  | 9 => decodeOne .arb m1
  | 99 => .ok .hlt
  | _ => .error .invalidOpcode

/-- R91: `Decode(raw)`. A negative word is InvalidOpcode (R82). -/
def decode (raw : Word) : Except DecodeFault Instr :=
  if raw.toInt < 0 then .error .invalidOpcode else decodeFields raw.toNat

/-- R84: the opcode of an instruction. -/
def Instr.opcode : Instr → Nat
  | .add .. => 1
  | .mul .. => 2
  | .inp .. => 3
  | .out .. => 4
  | .jnz .. => 5
  | .jz .. => 6
  | .lt .. => 7
  | .eq .. => 8
  | .arb .. => 9
  | .hlt => 99

/-- R80, R84: the modes of the operands an instruction has, in source order; their number is the operand count. -/
def Instr.modes : Instr → List AddrMode
  | .add a b d | .mul a b d | .lt a b d | .eq a b d => [a, b, d]
  | .jnz a t | .jz a t => [a, t]
  | .inp d => [d]
  | .out a | .arb a => [a]
  | .hlt => []

/-- R84: the length of an instruction in cells, 1 + the number of operands. -/
def Instr.length (i : Instr) : Nat := 1 + i.modes.length

/-- R93: the digits of a list of modes from 10^2 up, as a number to add to the opcode. -/
def modeDigits : List AddrMode → Nat
  | [] => 0
  | m :: ms => m.digit + 10 * modeDigits ms

/-- R93: the instruction word `opcode + 100*mode1 + 1000*mode2 + 10000*mode3`, unused digits 0. -/
def encode (i : Instr) : Word := BitVec.ofNat 64 (i.opcode + 100 * modeDigits i.modes)

/-- The `k`-th cell of a sequence of bits numbered from the least significant bit of the first cell, when `nbits` of them
are given and every bit above is 0. -/
def tableCell (nbits w k : Nat) : Word := BitVec.ofNat 64 (w % 2 ^ nbits / 2 ^ (64 * k))

/-- What the decoder reads from an instruction whose bits are `w`: R91 on its first cell, the instruction word. -/
def decodeTableWord (nbits w : Nat) : Option Instr :=
  match decode (tableCell nbits w 0) with
  | .ok i => some i
  | .error _ => none

end Sys2Proof
end

