-- ==== Sys2Proof/Machine/Fetch.lean ====
section
/-! DEFINITION. The fetch of an instruction (spec/46_execution_controller.md R180): the instruction word is an ordinary
`MemRead` at `ip` (spec/20_memory.md R65), then `Decode`. -/

namespace Sys2Proof.Machine

/-- R210: the fault kind of a word that is no instruction. -/
def decodeFaultKind : DecodeFault → FaultKind
  | .invalidOpcode => .invalidOpcode
  | .reservedMode => .reservedMode

/-- R180: fetch and decode; the information of a decode fault is the instruction word (R210). -/
def fetch (s : State) : Except Stop Instr := do
  let raw ← memRead s s.ip
  match decode raw with
  | .ok i => .ok i
  | .error f => .error (.raise (decodeFaultKind f) raw)

/-- Stores four cells at `ip` to `ip + 3`, the longest instruction, from the bits of `tableCell`. -/
def placeInstruction (s : State) (nbits w : Nat) : Memory :=
  (((s.mem.store s.ip.toNat (tableCell nbits w 0)).store (addrPlus s.ip 1).toNat (tableCell nbits w 1)).store
    (addrPlus s.ip 2).toNat (tableCell nbits w 2)).store (addrPlus s.ip 3).toNat (tableCell nbits w 3)

end Sys2Proof.Machine
end

