-- ==== Sys2Proof/Machine/HostPort.lean ====
section
/-! DEFINITION. The three transactions of the host (spec/46_execution_controller.md R182, R190; spec/70_reset_and_hazards.md
R250; spec/60_exceptions.md R225) and the values of the informative status signals (R191). -/

namespace Sys2Proof.Machine

/-- R35, R250: what `Construct(program)` makes of the instance: all its state is discarded. The open parameters are fixed
for the machine, and the host's own lists are the host's. -/
def State.construct (s : State) (program : List Word) : State :=
  { cfg := s.cfg, mem := Memory.load 0 program, ip := 0, rb := 0, es := .running, lo := 0, lov := false, inq := [],
    fk := none, fi := 0, busy := false, pending := s.pending, responses := s.responses }

/-- R182: the start of a call from `Running` or `SuspendedOnOutput`. -/
def State.beginCall (s : State) (inputs : List Word) : State :=
  { s with inq := inputs, es := .running, busy := true }

/-- R182: `Execute(inputs)` up to the first step of its loop. From `Faulted` it returns the latched fault (R187), from
`Halted` it returns `Ok(lo, true)` (R186), both at once and with the inputs ignored. (`Faulted` always holds a latched
kind; a state that has none is answered by a refusal.) -/
def State.startExecute (s : State) (inputs : List Word) : State :=
  match s.es with
  | .faulted =>
    match s.fk with
    | some k => s.respond (.returned (.fault k s.fi))
    | none => s.respond .refused
  | .halted => s.respond (.returned (.ok s.value true))
  | .running => s.beginCall inputs
  | .suspendedOnOutput => s.beginCall inputs

/-- R225: the answer to a `Peek`; it makes no address present. DESIGN CHOICE (log 11): a negative address is answered as the
map has it under the policy `refuse` too; R55 and U2 do not say whether a `Peek` is an access there. -/
def State.peek (s : State) : PeekItem → PeekValue
  | .cell addr => .cell (s.cell addr)
  | .ip => .word s.ip
  | .rb => .word s.rb
  | .es => .execState s.es
  | .lo => .word s.lo
  | .lov => .flag s.lov
  | .fk => .faultKind s.fk
  | .fi => .word s.fi

/-- R190: one transaction. Issued while a call is in progress it is refused and has no effect; so is a program or a batch
that is too long (decision D6). -/
def transact (t : Transaction) (s : State) : State :=
  if s.busy then s.respond .refused
  else match t with
    | .construct program =>
      if programWf s.cfg program then (s.construct program).respond .constructed else s.respond .refused
    | .execute inputs => if batchWf s.cfg inputs then s.startExecute inputs else s.respond .refused
    | .peek item => s.respond (.peeked (s.peek item))

/-- An idle machine takes the host's next transaction, or holds its state when there is none (R226). -/
def hostMove (s : State) : State :=
  match s.pending with
  | [] => s
  | t :: rest => transact t { s with pending := rest }

/-- R191: the level signals of the informative hardware wrapping, without timing. -/
structure Signals where
  busy : Bool
  outValue : Word
  outHalted : Bool
  execState : BitVec 2
  faultValid : Bool
  faultKind : BitVec 3
  faultInfo : Word
deriving DecidableEq, Repr

/-- R191: `out_value` = `lo`, `state` = `es` (R29), `fault_kind` = `fk` and `fault_info` = `fi` (R210). -/
def State.signals (s : State) : Signals where
  busy := s.busy
  outValue := s.lo
  outHalted := s.es = .halted
  execState := s.es.code
  faultValid := s.es = .faulted
  faultKind := faultCode s.fk
  faultInfo := s.fi

end Sys2Proof.Machine
end

