-- ==== Sys2Proof/Machine/Step.lean ====
section
/-! DEFINITION. One step of the whole: while a call is in progress, one instruction (spec/46_execution_controller.md R180);
while the machine is idle, the host's next transaction (R190), or nothing (spec/60_exceptions.md R226). -/

namespace Sys2Proof.Machine

/-- R180: fetch, decode, execute; a fault of the fetch or the decode is taken like an instruction's own. -/
def stepInstr (s : State) : Host.Outcome State Fault Refusal :=
  match fetch s with
  | .ok i => exec i s
  | .error e => settle s (.error e)

/-- One step. `Step()` is defined only when a call is in progress and `es = Running` (R180). -/
def step (s : State) : Host.Outcome State Fault Refusal :=
  if s.busy then
    if s.es = .running then stepInstr s else .fault .stepUndefined
  else .next (hostMove s)

/-- The instruction placed where `step` fetches next, with a call in progress: this stands for a `Construct` with that
program and the start of an `Execute` (log 4). -/
def State.withFetchWord (s : State) (nbits w : Nat) : State :=
  { s with mem := placeInstruction s nbits w, es := .running, busy := true }

end Sys2Proof.Machine
end

