-- ==== Sys2Proof/Machine/Call.lean ====
section
/-! DEFINITION. One whole `Execute` call under fuel (spec/46_execution_controller.md R182, R188): "A model runs calls under
fuel and treats a call that never returns as a hang." It is `step` repeated, nothing else. -/

namespace Sys2Proof.Machine

/-- Steps while a call is in progress; `none` when the fuel runs out first or a step stops. -/
def runCall : Nat → State → Option State
  | 0, s => if s.busy then none else some s
  | n + 1, s =>
    if s.busy then
      match step s with
      | .next t => runCall n t
      | .fault _ => none
      | .refused _ => none
    else some s

/-- R182: `Execute(inputs)`: the result the host is given and the state the machine is left in. -/
def execute (fuel : Nat) (inputs : List Word) (s : State) : Option (CallResult × State) :=
  match runCall fuel (transact (.execute inputs) s) with
  | some t =>
    match t.responses.getLast? with
    | some (.returned r) => some (r, t)
    | _ => none
  | none => none

end Sys2Proof.Machine
end

