-- ==== Sys2Proof/Safety.lean ====
section
/-! DEFINITION. The terms claims are stated in: what an operand reads as and where its resolution stops (spec/40_operand_resolver.md
R110 to R112), the state a fault leaves (spec/60_exceptions.md R218), and the invariant of the machine. They are written
from the spec without the resolver and the memory primitives of Machine/, so that a claim says something about those. -/

namespace Sys2Proof.Machine

/-- R55: the policy lets the machine access this address. -/
def State.Accessible (s : State) (x : Word) : Prop := s.cfg.negAddr = .key ∨ 0 ≤ x.toInt

/-- The address is accessible and its cell is present with this content. -/
def State.Holds (s : State) (x v : Word) : Prop := s.Accessible x ∧ s.cell x = some v

/-- The address is accessible and its cell is not present. -/
def State.Absent (s : State) (x : Word) : Prop := s.Accessible x ∧ s.cell x = none

/-- The address is negative and the policy is `refuse`. -/
def State.Forbidden (s : State) (x : Word) : Prop := s.cfg.negAddr = .refuse ∧ x.toInt < 0

/-- R111: read operand `k` under mode `m` has the value `v`. -/
def ReadsAs (s : State) (k : Nat) (m : AddrMode) (v : Word) : Prop :=
  ∃ w, s.Holds (wrap64 (s.ip.toInt + k)) w ∧
    match m with
    | .position => s.Holds w v
    | .immediate => v = w
    | .relative => s.Holds (wrap64 (s.rb.toInt + w.toInt)) v

/-- R111, R115: resolving read operand `k` stops at address `x`, the first it accesses that has the property `P`: its
operand word's, or that of the cell it names. -/
def ReadStopsAt (P : State → Word → Prop) (s : State) (k : Nat) (m : AddrMode) (x : Word) : Prop :=
  (x = wrap64 (s.ip.toInt + k) ∧ P s x) ∨
  ∃ w, s.Holds (wrap64 (s.ip.toInt + k)) w ∧
    match m with
    | .position => x = w ∧ P s x
    | .immediate => False
    | .relative => x = wrap64 (s.rb.toInt + w.toInt) ∧ P s x

/-- R112, R89: destination operand `k` under mode `m` names the address `d`. -/
def DestIs (s : State) (k : Nat) (m : AddrMode) (d : Word) : Prop :=
  ∃ w, s.Holds (wrap64 (s.ip.toInt + k)) w ∧
    match m with
    | .position => d = w
    | .immediate => d = w
    | .relative => d = wrap64 (s.rb.toInt + w.toInt)

/-- R112: resolving destination operand `k` stops at the address `x` of its operand word. -/
def DestStopsAt (P : State → Word → Prop) (s : State) (k : Nat) (x : Word) : Prop :=
  x = wrap64 (s.ip.toInt + k) ∧ P s x

/-- R53: a write to `d` is done: the address is accessible, and its cell is present or there is room for one more. -/
def State.Writable (s : State) (d : Word) : Prop :=
  s.Accessible d ∧ (s.cell d ≠ none ∨ ∀ n, s.cfg.memCells = some n → s.mem.length < n)

/-- R53: a write to `d` would make the number of present cells exceed MEM_CELLS. -/
def State.OverCapacity (s : State) (d : Word) : Prop :=
  s.Accessible d ∧ s.cell d = none ∧ ∃ n, s.cfg.memCells = some n ∧ n ≤ s.mem.length

/-- `t` is `s` after one store of `v` at `d` and an advance of `len` cells: every other cell reads as before and every
other element is unchanged. -/
def StoredAndAdvanced (s t : State) (d v : Word) (len : Nat) : Prop :=
  t.cell d = some v ∧ (∀ x, x ≠ d → t.cell x = s.cell x) ∧
    t = { s with mem := t.mem, ip := wrap64 (s.ip.toInt + len) }

/-- R218, R182: the state after a fault: `M`, `ip`, `rb`, `lo`, `lov` as they were, the kind and information latched, the
machine Faulted, the queue empty, the call ended with `Fault(kind, info)`. -/
def State.afterFault (s : State) (kind : FaultKind) (info : Word) : State :=
  { s with es := .faulted, inq := [], fk := some kind, fi := info, busy := false,
           responses := s.responses ++ [.returned (.fault kind info)] }

/-! ### The shape of an instruction's rule: its encoding, where it completes and with what, and each place it stops -/

/-- R130, R131, R160, R161: the whole rule of an instruction `mk` with opcode `op` and operands a, b, dst that stores
`f a b`: the instruction word; the completed effect; the faults in the order of R217 (4) to (6) and (8), each with none of
the effect; and, under the policy `refuse`, the stop at the first negative address (log 8). -/
def BinaryRule (mk : AddrMode → AddrMode → AddrMode → Instr) (op : Nat) (f : Word → Word → Word) : Prop :=
  ∀ (s : State) (m1 m2 m3 : AddrMode),
    (encode (mk m1 m2 m3)).toNat = op + 100 * m1.digit + 1000 * m2.digit + 10000 * m3.digit ∧
    (∀ a b d, ReadsAs s 1 m1 a → ReadsAs s 2 m2 b → DestIs s 3 m3 d → s.Writable d →
      ∃ t, exec (mk m1 m2 m3) s = .next t ∧ StoredAndAdvanced s t d (f a b) 4) ∧
    (∀ x, ReadStopsAt State.Absent s 1 m1 x → exec (mk m1 m2 m3) s = .next (s.afterFault .memoryFault x)) ∧
    (∀ a x, ReadsAs s 1 m1 a → ReadStopsAt State.Absent s 2 m2 x →
      exec (mk m1 m2 m3) s = .next (s.afterFault .memoryFault x)) ∧
    (∀ a b x, ReadsAs s 1 m1 a → ReadsAs s 2 m2 b → DestStopsAt State.Absent s 3 x →
      exec (mk m1 m2 m3) s = .next (s.afterFault .memoryFault x)) ∧
    (∀ a b d, ReadsAs s 1 m1 a → ReadsAs s 2 m2 b → DestIs s 3 m3 d → s.OverCapacity d →
      exec (mk m1 m2 m3) s = .next (s.afterFault .capacityFault d)) ∧
    (∀ x, ReadStopsAt State.Forbidden s 1 m1 x → exec (mk m1 m2 m3) s = .fault (.negativeAddress x)) ∧
    (∀ a x, ReadsAs s 1 m1 a → ReadStopsAt State.Forbidden s 2 m2 x →
      exec (mk m1 m2 m3) s = .fault (.negativeAddress x)) ∧
    (∀ a b x, ReadsAs s 1 m1 a → ReadsAs s 2 m2 b → DestStopsAt State.Forbidden s 3 x →
      exec (mk m1 m2 m3) s = .fault (.negativeAddress x)) ∧
    (∀ a b d, ReadsAs s 1 m1 a → ReadsAs s 2 m2 b → DestIs s 3 m3 d → s.Forbidden d →
      exec (mk m1 m2 m3) s = .fault (.negativeAddress d))

/-- R150, R151: the whole rule of a jump `mk` with opcode `op` that is taken when `taken a`: both operands are resolved
whether it is taken or not; the stops under the policy `refuse` are R55, read as in log 8. -/
def JumpRule (mk : AddrMode → AddrMode → Instr) (op : Nat) (taken : Word → Prop) : Prop :=
  ∀ (s : State) (m1 m2 : AddrMode),
    (encode (mk m1 m2)).toNat = op + 100 * m1.digit + 1000 * m2.digit ∧
    (∀ a t, ReadsAs s 1 m1 a → ReadsAs s 2 m2 t → taken a → exec (mk m1 m2) s = .next { s with ip := t }) ∧
    (∀ a t, ReadsAs s 1 m1 a → ReadsAs s 2 m2 t → ¬ taken a →
      exec (mk m1 m2) s = .next { s with ip := wrap64 (s.ip.toInt + 3) }) ∧
    (∀ x, ReadStopsAt State.Absent s 1 m1 x → exec (mk m1 m2) s = .next (s.afterFault .memoryFault x)) ∧
    (∀ a x, ReadsAs s 1 m1 a → ReadStopsAt State.Absent s 2 m2 x →
      exec (mk m1 m2) s = .next (s.afterFault .memoryFault x)) ∧
    (∀ x, ReadStopsAt State.Forbidden s 1 m1 x → exec (mk m1 m2) s = .fault (.negativeAddress x)) ∧
    (∀ a x, ReadsAs s 1 m1 a → ReadStopsAt State.Forbidden s 2 m2 x →
      exec (mk m1 m2) s = .fault (.negativeAddress x))

/-- R141, R170: the whole rule of an instruction `mk` with opcode `op` and one read operand, whose effect on the state is
`effect s a`; the stop under the policy `refuse` is R55, read as in log 8. -/
def UnaryRule (mk : AddrMode → Instr) (op : Nat) (effect : State → Word → State) : Prop :=
  ∀ (s : State) (m1 : AddrMode),
    (encode (mk m1)).toNat = op + 100 * m1.digit ∧
    (∀ a, ReadsAs s 1 m1 a → exec (mk m1) s = .next (effect s a)) ∧
    (∀ x, ReadStopsAt State.Absent s 1 m1 x → exec (mk m1) s = .next (s.afterFault .memoryFault x)) ∧
    (∀ x, ReadStopsAt State.Forbidden s 1 m1 x → exec (mk m1) s = .fault (.negativeAddress x))

/-- The four instructions that store a function of two operands, with the mode of their destination. -/
def StoresTo (i : Instr) (m3 : AddrMode) : Prop :=
  ∃ m1 m2, i = .add m1 m2 m3 ∨ i = .mul m1 m2 m3 ∨ i = .lt m1 m2 m3 ∨ i = .eq m1 m2 m3

/-- R181 `Continue`: the elements the controller owns are as they were. -/
def SameControl (s t : State) : Prop :=
  t.es = s.es ∧ t.fk = s.fk ∧ t.fi = s.fi ∧ t.busy = s.busy ∧ t.responses = s.responses

/-- The two states differ at most on the host's side of the interface. -/
def State.SameMachine (s t : State) : Prop := t = { s with pending := t.pending, responses := t.responses }

/-- A transaction is a `Construct`. -/
def Transaction.isConstruct : Transaction → Bool
  | .construct _ => true
  | .execute _ => false
  | .peek _ => false

/-- R193: the run is over, normally. -/
def State.endedNormally (s : State) : Prop := s.busy = false ∧ s.es = .halted

/-- R193, R227: the run is over, in a fault: never a correct termination. -/
def State.endedInFault (s : State) : Prop := s.busy = false ∧ s.es = .faulted

/-- R227: a state of a safe run: no fault is latched and no call has ended in one. -/
def State.safe (s : State) : Prop := s.es ≠ .faulted

/-- The invariant of the machine: it holds after every `Construct` and every step keeps it. -/
structure State.Inv (s : State) : Prop where
  /-- The memory is in its canonical form. -/
  memWf : s.mem.wf
  /-- R53: never more than MEM_CELLS cells are present. -/
  capacity : ∀ n, s.cfg.memCells = some n → s.mem.length ≤ n
  /-- R55: under the policy `refuse` no negative address is present. -/
  noNegative : s.cfg.negAddr = .refuse → ∀ c ∈ s.mem, c.1 < 2 ^ 63
  /-- R28: the queue is never longer than INQ_DEPTH. -/
  queueBound : ∀ n, s.cfg.inqDepth = some n → s.inq.length ≤ n
  /-- R28: the queue is empty whenever no call is in progress. -/
  queueIdle : s.busy = false → s.inq = []
  /-- R29: during a call `es = Running`. -/
  callRunning : s.busy = true → s.es = .running
  /-- R29, R30: a fault is latched exactly when the machine is Faulted. -/
  faultLatched : s.es = .faulted ↔ s.fk ≠ none
  /-- R35: with no fault latched the information Word is 0. -/
  infoClear : s.fk = none → s.fi = 0
  /-- R29, R30: a machine suspended on an output has made one. -/
  suspendedOutput : s.es = .suspendedOnOutput → s.lov = true
  /-- R22, R186: a halted machine's `ip` is at a word that decodes as HLT. -/
  haltedAtHlt : s.es = .halted → ∃ w, s.cell s.ip = some w ∧ decode w = .ok .hlt

end Sys2Proof.Machine
end

