-- ==== Sys2Proof/Certificates/Slice0/Obligations.lean ====
section
/-! DEFINITION. The statements for the provers. The vocabulary (ReadsAs, DestIs, ReadStopsAt, afterFault, BinaryRule, Inv
and the others) is in Sys2Proof/Safety.lean. -/

open Sys2Proof Sys2Proof.Machine

/-! ### Encoding -/

/-- R91, R93: decoding an encoded instruction gives it back, every operand at every mode. -/
def Obligations.DecodeEncodeRoundTrip : Prop := ∀ i : Instr, decode (encode i) = .ok i

/-- R90, R91: every Word is exactly one of: InvalidOpcode (negative, or an opcode that is none of the ten), ReservedMode
(a digit 3 to 9 in a used position), or the one instruction with the opcode and the used mode digits of the word, whose
length is 1 + the number of operands of the opcode. -/
def Obligations.DecodeClassifiesEveryWord : Prop :=
  ∀ raw : Word,
    (decode raw = .error .invalidOpcode ↔
      raw.toInt < 0 ∨ raw.toNat % 100 ∉ [1, 2, 3, 4, 5, 6, 7, 8, 9, 99]) ∧
    (decode raw = .error .reservedMode ↔
      0 ≤ raw.toInt ∧ raw.toNat % 100 ∈ [1, 2, 3, 4, 5, 6, 7, 8, 9, 99] ∧
        ∃ k ∈ [1, 2, 3], opcodeHasOperand (raw.toNat % 100) k = true ∧ 3 ≤ modeDigit raw.toNat k) ∧
    (∀ i, decode raw = .ok i ↔
      instrWordWf raw = true ∧ i.opcode = raw.toNat % 100 ∧
        ∀ k (h : k < i.modes.length), (i.modes[k]).digit = modeDigit raw.toNat (k + 1)) ∧
    (∀ i, decode raw = .ok i →
      i.length = 1 + ([1, 2, 3].filter (opcodeHasOperand (raw.toNat % 100))).length)

/-- R83: digits that no field uses change nothing: two non-negative words with the same opcode and the same digits in the
positions the opcode uses decode alike; and the rule's own examples. -/
def Obligations.UnusedDigitsAreIgnored : Prop :=
  (∀ raw raw' : Word, 0 ≤ raw.toInt → 0 ≤ raw'.toInt → raw'.toNat % 100 = raw.toNat % 100 →
    (∀ k, opcodeHasOperand (raw.toNat % 100) k = true → modeDigit raw'.toNat k = modeDigit raw.toNat k) →
    decode raw' = decode raw) ∧
  decode 100001 = .ok (.add .position .position .position) ∧
  9223372036854775807 % 100 = 7 ∧ modeDigit 9223372036854775807 1 = 8 ∧ modeDigit 9223372036854775807 2 = 5 ∧
  modeDigit 9223372036854775807 3 = 7 ∧ decode 9223372036854775807 = .error .reservedMode ∧
  decode 1099 = .ok .hlt ∧ decode 10003 = .ok (.inp .position) ∧ decode 91104 = .ok (.out .immediate)

/-- R95: the worked decodes, each written out. -/
def Obligations.WorkedDecodes : Prop :=
  decode 1002 = .ok (.mul .position .immediate .position) ∧
  decode 1101 = .ok (.add .immediate .immediate .position) ∧
  decode 204 = .ok (.out .relative) ∧
  decode 109 = .ok (.arb .immediate) ∧
  decode 1008 = .ok (.eq .position .immediate .position) ∧
  decode 1006 = .ok (.jz .position .immediate) ∧
  decode 21107 = .ok (.lt .immediate .immediate .relative) ∧
  decode 99 = .ok .hlt ∧
  decode 0 = .error .invalidOpcode ∧
  decode 12345 = .error .invalidOpcode ∧
  decode 301 = .error .reservedMode ∧
  decode 399 = .ok .hlt ∧
  decode (-1) = .error .invalidOpcode

/-! ### Memory -/

/-- R52: `MemRead` returns the content of a present cell and raises MemoryFault with the address of one that is not; it is
never an implicit zero. Under the policy `refuse` it stops at a negative address (R55, read as in log 8). -/
def Obligations.ReadReturnsCellOrFaults : Prop :=
  ∀ (s : State) (x : Word),
    (∀ v, memRead s x = .ok v ↔ s.Holds x v) ∧
    (∀ k y, memRead s x = .error (.raise k y) ↔ k = .memoryFault ∧ y = x ∧ s.Absent x) ∧
    (∀ r, memRead s x = .error (.stuck r) ↔ r = .negativeAddress x ∧ s.Forbidden x)

/-- R53: `MemWrite` stores the value, creates the cell when it was not present, and leaves every other cell and element
alone; one that would exceed MEM_CELLS raises CapacityFault with the address. Under the policy `refuse` it stops at a
negative address (R55), which is looked at before the capacity (log 8). -/
def Obligations.WriteStoresOrFaults : Prop :=
  ∀ (s : State) (x v : Word),
    (s.Writable x → ∃ t, memWrite s x v = .ok t ∧ t.cell x = some v ∧ (∀ y, y ≠ x → t.cell y = s.cell y) ∧
      t = { s with mem := t.mem }) ∧
    (s.OverCapacity x → memWrite s x v = .error (.raise .capacityFault x)) ∧
    (s.Forbidden x → memWrite s x v = .error (.stuck (.negativeAddress x)))

/-- R54: after a write of `v` to `a`, and any writes to other addresses, reading `a` returns `v`. -/
def Obligations.ReadReturnsLatestWrite : Prop :=
  ∀ (s t u : State) (a v : Word) (ws : List (Word × Word)),
    memWrite s a v = .ok t →
    ws.foldlM (fun u w => memWrite u w.1 w.2) t = .ok u →
    (∀ w ∈ ws, w.1 ≠ a) →
    memRead u a = .ok v

/-- R65: a store is seen by the very next fetch of its address: what the fetch there answers is the decoding of the stored
Word. -/
def Obligations.StoreIsSeenByNextFetch : Prop :=
  ∀ (s t : State) (d v : Word), memWrite s d v = .ok t →
    fetch { t with ip := d } =
      match decode v with
      | .ok i => .ok i
      | .error .invalidOpcode => .error (.raise .invalidOpcode v)
      | .error .reservedMode => .error (.raise .reservedMode v)

/-- R33, R51: a present cell stays present through every step but a `Construct`. (The list of the host's transactions is the
model's own, log 3.) -/
def Obligations.PresentCellStaysPresent : Prop :=
  ∀ (s t : State) (x : Word), step s = .next t → s.cell x ≠ none →
    (s.busy = false → ∀ p rest, s.pending ≠ .construct p :: rest) →
    t.cell x ≠ none

/-! ### Operand resolver -/

/-- R111: `ReadVal(k, m)`: the value of a read operand in each mode, and where its resolution faults. Where it stops under
the policy `refuse` is R55, read as in log 8. -/
def Obligations.ReadOperandByMode : Prop :=
  ∀ (s : State) (k : Nat) (m : AddrMode),
    (∀ v, readVal s k m = .ok v ↔ ReadsAs s k m v) ∧
    (∀ q x, readVal s k m = .error (.raise q x) ↔ q = .memoryFault ∧ ReadStopsAt State.Absent s k m x) ∧
    (∀ r, readVal s k m = .error (.stuck r) ↔ ∃ x, r = .negativeAddress x ∧ ReadStopsAt State.Forbidden s k m x)

/-- R112: `WriteAddr(k, m)`: the address a destination names in each mode; only its operand word is read.
Where it stops under the policy `refuse` is R55, read as in log 8. -/
def Obligations.DestinationAddressByMode : Prop :=
  ∀ (s : State) (k : Nat) (m : AddrMode),
    (∀ d, writeAddr s k m = .ok d ↔ DestIs s k m d) ∧
    (∀ q x, writeAddr s k m = .error (.raise q x) ↔ q = .memoryFault ∧ DestStopsAt State.Absent s k x) ∧
    (∀ r, writeAddr s k m = .error (.stuck r) ↔ ∃ x, r = .negativeAddress x ∧ DestStopsAt State.Forbidden s k x)

/-- R89: mode 1 on a destination is legal and behaves exactly as mode 0 there, in each of the five instructions that have
one; the rule's own words decode. -/
def Obligations.ImmediateDestinationActsAsPosition : Prop :=
  ∀ (s : State) (m1 m2 : AddrMode),
    exec (.add m1 m2 .immediate) s = exec (.add m1 m2 .position) s ∧
    exec (.mul m1 m2 .immediate) s = exec (.mul m1 m2 .position) s ∧
    exec (.lt m1 m2 .immediate) s = exec (.lt m1 m2 .position) s ∧
    exec (.eq m1 m2 .immediate) s = exec (.eq m1 m2 .position) s ∧
    exec (.inp .immediate) s = exec (.inp .position) s ∧
    decode 10001 = .ok (.add .position .position .immediate) ∧ decode 103 = .ok (.inp .immediate)

/-! ### The ten instructions: each rule whole -/

/-- R130: ADD stores the wrapped sum at dst and advances by 4; its faults, in order; its word. -/
def Obligations.AddRule : Prop := BinaryRule .add 1 fun a b => wrap64 (a.toInt + b.toInt)

/-- R131: MUL stores the wrapped product at dst and advances by 4; its faults, in order; its word. -/
def Obligations.MulRule : Prop := BinaryRule .mul 2 fun a b => wrap64 (a.toInt * b.toInt)

/-- R160: LT stores 1 if a < b as signed integers and 0 otherwise. -/
def Obligations.LessThanRule : Prop := BinaryRule .lt 7 fun a b => if a.toInt < b.toInt then 1 else 0

/-- R161: EQ stores 1 if a = b and 0 otherwise. -/
def Obligations.EqualsRule : Prop := BinaryRule .eq 8 fun a b => if a = b then 1 else 0

/-- R140: IN takes the front of the queue, stores it at dst and advances by 2; an unreadable operand word, then an empty
queue, then the capacity, each raise their fault with nothing changed. Where the policy `refuse` stops among them is the
model's reading, log 8. -/
def Obligations.InputRule : Prop :=
  ∀ (s : State) (m1 : AddrMode),
    (encode (.inp m1)).toNat = 3 + 100 * m1.digit ∧
    (∀ d v rest, DestIs s 1 m1 d → s.inq = v :: rest → s.Writable d →
      ∃ t, exec (.inp m1) s = .next t ∧ StoredAndAdvanced { s with inq := rest } t d v 2) ∧
    (∀ x, DestStopsAt State.Absent s 1 x → exec (.inp m1) s = .next (s.afterFault .memoryFault x)) ∧
    (∀ d, DestIs s 1 m1 d → s.inq = [] → exec (.inp m1) s = .next (s.afterFault .inputUnderflow s.ip)) ∧
    (∀ d v rest, DestIs s 1 m1 d → s.inq = v :: rest → s.OverCapacity d →
      exec (.inp m1) s = .next (s.afterFault .capacityFault d)) ∧
    (∀ x, DestStopsAt State.Forbidden s 1 x → exec (.inp m1) s = .fault (.negativeAddress x)) ∧
    (∀ d v rest, DestIs s 1 m1 d → s.inq = v :: rest → s.Forbidden d →
      exec (.inp m1) s = .fault (.negativeAddress d))

/-- R141, R182: OUT overwrites `lo`, sets `lov`, advances by 2 and ends the call with `Ok(a, false)`, the machine
suspended and the queue emptied. -/
def Obligations.OutputRule : Prop :=
  UnaryRule .out 4 fun s a =>
    { s with lo := a, lov := true, ip := wrap64 (s.ip.toInt + 2), es := .suspendedOnOutput, inq := [], busy := false,
             responses := s.responses ++ [.returned (.ok (some a) false)] }

/-- R150: JNZ goes to the value of target if a != 0, and otherwise past itself. -/
def Obligations.JumpIfTrueRule : Prop := JumpRule .jnz 5 fun a => a.toInt ≠ 0

/-- R151: JZ goes to the value of target if a == 0, and otherwise past itself. -/
def Obligations.JumpIfFalseRule : Prop := JumpRule .jz 6 fun a => a.toInt = 0

/-- R170: ARB adds its operand, read with the old base, to `rb`, wrapping, and advances by 2. -/
def Obligations.AdjustBaseRule : Prop :=
  UnaryRule .arb 9 fun s a => { s with rb := wrap64 (s.rb.toInt + a.toInt), ip := wrap64 (s.ip.toInt + 2) }

/-- R171, R182: HLT ends the call with `Ok(lo, true)`, the machine halted, `ip` and all else unchanged. Where no output has
been made the value is `none` (the model's choice, log 5). -/
def Obligations.HaltRule : Prop :=
  (encode .hlt).toNat = 99 ∧
  ∀ s : State, exec .hlt s = .next
    { s with es := .halted, inq := [], busy := false,
             responses := s.responses ++ [.returned (.ok (if s.lov then some s.lo else none) true)] }

/-! ### Laws of arithmetic and comparison -/

/-- R132: the sum is the exact one where it is a Word, and otherwise the exact one minus or plus 2^64; it is the ordinary
two's-complement sum; the same law governs the new `rb` of ARB and every address sum; and the rule's examples. -/
def Obligations.AdditionLaw : Prop :=
  (∀ a b : Word,
    (-2 ^ 63 ≤ a.toInt + b.toInt → a.toInt + b.toInt < 2 ^ 63 → (aluAdd a b).toInt = a.toInt + b.toInt) ∧
    (2 ^ 63 ≤ a.toInt + b.toInt → (aluAdd a b).toInt = a.toInt + b.toInt - 2 ^ 64) ∧
    (a.toInt + b.toInt < -2 ^ 63 → (aluAdd a b).toInt = a.toInt + b.toInt + 2 ^ 64) ∧
    aluAdd a b = a + b) ∧
  (∀ (s : State) (k : Nat), addrPlus s.ip k = s.ip + BitVec.ofNat 64 k ∧
    operandWord s k = memRead s (s.ip + BitVec.ofNat 64 k) ∧
    (∀ w, operandWord s k = .ok w →
      readVal s k .relative = memRead s (s.rb + w) ∧ writeAddr s k .relative = .ok (s.rb + w))) ∧
  (∀ (s : State) (m : AddrMode) (a : Word), readVal s 1 m = .ok a → ∃ t, exec (.arb m) s = .next t ∧ t.rb = s.rb + a) ∧
  (aluAdd (wrap64 (2 ^ 63 - 1)) 1).toInt = -2 ^ 63 ∧
  (aluAdd (wrap64 (-2 ^ 63)) (wrap64 (-1))).toInt = 2 ^ 63 - 1 ∧
  (aluAdd (wrap64 (-2 ^ 63)) (wrap64 (-2 ^ 63))).toInt = 0 ∧
  (aluAdd 5 (wrap64 (-7))).toInt = -2

/-- R133: the product is congruent to the exact one modulo 2^64 and equals it where that is a Word; it is the low 64 bits
of the product; and the rule's examples. -/
def Obligations.MultiplicationLaw : Prop :=
  (∀ a b : Word,
    (2 ^ 64 : Int) ∣ (aluMul a b).toInt - a.toInt * b.toInt ∧
    (-2 ^ 63 ≤ a.toInt * b.toInt → a.toInt * b.toInt < 2 ^ 63 → (aluMul a b).toInt = a.toInt * b.toInt) ∧
    aluMul a b = a * b) ∧
  (aluMul (wrap64 (2 ^ 32)) (wrap64 (2 ^ 32))).toInt = 0 ∧
  (aluMul (wrap64 (-2 ^ 63)) (wrap64 (-1))).toInt = -2 ^ 63 ∧
  (3037000500 : Int) * 3037000500 = 9223372037000250000 ∧ (aluMul 3037000500 3037000500).toInt = -9223372036709301616 ∧
  (aluMul (wrap64 (2 ^ 63 - 1)) (wrap64 (2 ^ 63 - 1))).toInt = 1 ∧
  (aluMul (wrap64 (2 ^ 63 - 1)) 2).toInt = -2 ∧
  (aluMul 34915192 34915192).toInt = 1219070632396864

/-- R162: a comparison's result is the Word 1 or the Word 0 and nothing else, exact on signed integers. -/
def Obligations.ComparisonLaw : Prop :=
  (∀ a b : Word,
    (cmpLt a b = 1 ∧ a.toInt < b.toInt ∨ cmpLt a b = 0 ∧ b.toInt ≤ a.toInt) ∧
    (cmpEq a b = 1 ∧ a = b ∨ cmpEq a b = 0 ∧ a ≠ b)) ∧
  cmpLt (wrap64 (2 ^ 63 - 1)) (wrap64 (-2 ^ 63)) = 0 ∧ cmpLt (wrap64 (-2 ^ 63)) (wrap64 (2 ^ 63 - 1)) = 1

/-! ### What instructions leave unchanged -/

/-- R37, R114: the frame of ADD, MUL, LT and EQ: every cell but the destination's reads as before, `rb`, `lo`, `lov`, the
parameters and the host's transactions are unchanged, and so are the queue and the controller's elements unless the
instruction took a fault, which leaves all of memory and `ip` unchanged. -/
def Obligations.FrameOfStoringInstructions : Prop :=
  ∀ (i : Instr) (m3 : AddrMode) (s t : State), StoresTo i m3 → exec i s = .next t →
    (∀ d, writeAddr s 3 m3 = .ok d → ∀ x, x ≠ d → t.cell x = s.cell x) ∧
    t.rb = s.rb ∧ t.lo = s.lo ∧ t.lov = s.lov ∧ t.cfg = s.cfg ∧ t.pending = s.pending ∧
    ((∃ d, writeAddr s 3 m3 = .ok d) ∧ SameControl s t ∧ t.inq = s.inq ∨ ∃ k x, t = s.afterFault k x)

/-- R37: the frame of IN: every cell but the destination's reads as before; the queue loses its front value and nothing
else; the rest is as for the other storing instructions. -/
def Obligations.FrameOfInput : Prop :=
  ∀ (m1 : AddrMode) (s t : State), exec (.inp m1) s = .next t →
    (∀ d, writeAddr s 1 m1 = .ok d → ∀ x, x ≠ d → t.cell x = s.cell x) ∧
    t.rb = s.rb ∧ t.lo = s.lo ∧ t.lov = s.lov ∧ t.cfg = s.cfg ∧ t.pending = s.pending ∧
    ((∃ d, writeAddr s 1 m1 = .ok d) ∧ SameControl s t ∧ t.inq = s.inq.tail ∨ ∃ k x, t = s.afterFault k x)

/-- R37: the frame of OUT, JNZ, JZ, ARB and HLT: no cell changes; `rb` changes only by ARB, `lo` and `lov` only by OUT;
`fk` and `fi` only where a fault is taken; `es`, the queue and the end of the call only there and by OUT and HLT. -/
def Obligations.FrameOfNonStoringInstructions : Prop :=
  ∀ (i : Instr) (s t : State),
    ((∃ m, i = .out m) ∨ (∃ m1 m2, i = .jnz m1 m2) ∨ (∃ m1 m2, i = .jz m1 m2) ∨ (∃ m, i = .arb m) ∨ i = .hlt) →
    exec i s = .next t →
    (∀ x, t.cell x = s.cell x) ∧ t.cfg = s.cfg ∧ t.pending = s.pending ∧
    ((∀ m, i ≠ .arb m) → t.rb = s.rb) ∧
    ((∀ m, i ≠ .out m) → t.lo = s.lo ∧ t.lov = s.lov) ∧
    (t.fk = s.fk ∧ t.fi = s.fi ∧ ((∀ m, i ≠ .out m) ∧ i ≠ .hlt → SameControl s t ∧ t.inq = s.inq) ∨
      ∃ k x, t = s.afterFault k x)

/-- R23: the whole table of how each instruction advances `ip`. -/
def Obligations.PointerAfterInstruction : Prop :=
  ∀ (i : Instr) (s t : State), s.es = .running → exec i s = .next t →
    (t.es = .faulted → t.ip = s.ip) ∧
    (t.es ≠ .faulted →
      match i with
      | .add _ _ _ | .mul _ _ _ | .lt _ _ _ | .eq _ _ _ => t.ip = wrap64 (s.ip.toInt + 4)
      | .inp _ | .arb _ => t.ip = wrap64 (s.ip.toInt + 2)
      | .out _ => t.ip = wrap64 (s.ip.toInt + 2) ∧ t.busy = false
      | .jnz m1 m2 => ∃ a, ReadsAs s 1 m1 a ∧
          (a.toInt = 0 ∧ t.ip = wrap64 (s.ip.toInt + 3) ∨ a.toInt ≠ 0 ∧ ReadsAs s 2 m2 t.ip)
      | .jz m1 m2 => ∃ a, ReadsAs s 1 m1 a ∧
          (a.toInt ≠ 0 ∧ t.ip = wrap64 (s.ip.toInt + 3) ∨ a.toInt = 0 ∧ ReadsAs s 2 m2 t.ip)
      | .hlt => t.ip = s.ip)

/-- R20, R37: during a call `rb` is written by ARB only, `lo` and `lov` by OUT only, memory by ADD, MUL, IN, LT and EQ only,
`ip` by every instruction but HLT, `inq` by IN and by the end of the call, `es` by OUT, HLT and a fault, `fk` and `fi` by a
fault only; a call ends by OUT, HLT or a fault; and the parameters and the host's transactions are written by none. (The
list of the host's transactions is the model's own, log 3.) -/
def Obligations.WritersOfEachElement : Prop :=
  ∀ s t : State, s.busy = true → step s = .next t →
    (t.rb ≠ s.rb → ∃ m, fetch s = .ok (.arb m)) ∧
    (t.lo ≠ s.lo ∨ t.lov ≠ s.lov → ∃ m, fetch s = .ok (.out m)) ∧
    (t.mem ≠ s.mem → ∃ i, fetch s = .ok i ∧ ((∃ m3, StoresTo i m3) ∨ ∃ m, i = .inp m)) ∧
    (fetch s = .ok .hlt → t.ip = s.ip) ∧
    (t.inq ≠ s.inq → (∃ m, fetch s = .ok (.inp m)) ∨ t.busy = false) ∧
    (t.es ≠ s.es ∨ t.busy = false →
      ((∃ m, fetch s = .ok (.out m)) ∧ t.es = .suspendedOnOutput) ∨ (fetch s = .ok .hlt ∧ t.es = .halted) ∨
        ∃ k x, t = s.afterFault k x) ∧
    (t.fk ≠ s.fk ∨ t.fi ≠ s.fi → ∃ k x, t = s.afterFault k x) ∧
    t.cfg = s.cfg ∧ t.pending = s.pending

/-! ### Faults -/

/-- R218: faults are precise: a step of a call that ends Faulted changed nothing but the latch, `es`, the queue and the end
of the call. -/
def Obligations.FaultsArePrecise : Prop :=
  ∀ s t : State, s.busy = true → step s = .next t → t.es = .faulted → ∃ k x, t = s.afterFault k x

/-- R210: what each kind is raised by and what information it records: decode faults by the fetch, with the instruction
word; InputUnderflow by IN, with `ip`, when the queue is empty; CapacityFault by the five storing instructions; MemoryFault
with an address that is not present; and no kind by HLT once it is fetched. -/
def Obligations.RaisersOfEachFault : Prop :=
  ∀ (s : State) (k : FaultKind) (x : Word), s.busy = true → s.es = .running → step s = .next (s.afterFault k x) →
    (k = .invalidOpcode → s.cell s.ip = some x ∧ decode x = .error .invalidOpcode) ∧
    (k = .reservedMode → s.cell s.ip = some x ∧ decode x = .error .reservedMode) ∧
    (k = .memoryFault → s.cell x = none) ∧
    (k = .inputUnderflow → x = s.ip ∧ s.inq = [] ∧ ∃ m, fetch s = .ok (.inp m)) ∧
    (k = .capacityFault → s.cell x = none ∧ ∃ i, fetch s = .ok i ∧ ((∃ m3, StoresTo i m3) ∨ ∃ m, i = .inp m)) ∧
    fetch s ≠ .ok .hlt

/-- R29, R210: the codes on the status port. -/
def Obligations.StatusCodes : Prop :=
  ExecState.code .running = 0 ∧ ExecState.code .suspendedOnOutput = 1 ∧ ExecState.code .halted = 2 ∧
  ExecState.code .faulted = 3 ∧
  faultCode none = 0 ∧ faultCode (some .invalidOpcode) = 1 ∧ faultCode (some .inputUnderflow) = 2 ∧
  faultCode (some .memoryFault) = 3 ∧ faultCode (some .reservedMode) = 4 ∧ faultCode (some .capacityFault) = 5

/-! ### One step -/

/-- R180: while a call is in progress, a step runs the instruction that the word at `ip` decodes to, and adds nothing. -/
def Obligations.StepRunsDecodedInstruction : Prop :=
  ∀ (s : State) (raw : Word) (i : Instr), s.busy = true → s.es = .running → s.Holds s.ip raw → decode raw = .ok i →
    step s = exec i s

/-- R217 (1) to (3): a fetch from an address that is not present raises MemoryFault(ip); a word that is no instruction raises
InvalidOpcode(raw) or ReservedMode(raw), whatever its operand words are. Under the policy `refuse` a fetch from a negative
address stops (R55, read as in log 8). -/
def Obligations.FetchAndDecodeFaults : Prop :=
  ∀ s : State, s.busy = true → s.es = .running →
    (s.Absent s.ip → step s = .next (s.afterFault .memoryFault s.ip)) ∧
    (∀ raw, s.Holds s.ip raw → decode raw = .error .invalidOpcode →
      step s = .next (s.afterFault .invalidOpcode raw)) ∧
    (∀ raw, s.Holds s.ip raw → decode raw = .error .reservedMode →
      step s = .next (s.afterFault .reservedMode raw)) ∧
    (s.Forbidden s.ip → step s = .fault (.negativeAddress s.ip))

/-- R226, R190: an idle machine with no transaction to take holds its state; with one it takes the oldest. (The list of the
host's transactions is the model's own, log 3.) -/
def Obligations.IdleMachineWaitsForHost : Prop :=
  ∀ s : State, s.busy = false →
    (s.pending = [] → step s = .next s) ∧
    (∀ tr rest, s.pending = tr :: rest → step s = .next (transact tr { s with pending := rest }))

/-- The instruction placed by `withFetchWord` is the one the next step runs. (`withFetchWord` is the model's own, log 4.) -/
def Obligations.PlacedInstructionRunsNext : Prop :=
  ∀ (s : State) (nbits w : Nat) (i : Instr), decodeTableWord nbits w = some i → s.Accessible s.ip →
    step (s.withFetchWord nbits w) = exec i (s.withFetchWord nbits w)

/-- R188, R262: the machine never stalls: from every state of the invariant a step answers a next state, unless the policy
is `refuse` and the step would access a negative address (R55, read as in log 8). -/
def Obligations.StepStopsOnlyAtRefusedAddress : Prop :=
  ∀ s : State, s.Inv →
    (∃ t, step s = .next t) ∨
    (s.cfg.negAddr = .refuse ∧ ∃ x : Word, x.toInt < 0 ∧ step s = .fault (.negativeAddress x))

/-! ### The host's transactions -/

/-- R35, R250: `Construct(program)` on an idle machine sets every element of the state; the program is present exactly at
addresses 0 to len-1. A program longer than a bound is refused without effect (R57). The bound 2^63 is the model's reading,
log 6. -/
def Obligations.ConstructSetsEveryElement : Prop :=
  ∀ (s : State) (p : List Word), s.busy = false →
    ((∀ n, s.cfg.progMax = some n → p.length ≤ n) → (∀ n, s.cfg.memCells = some n → p.length ≤ n) →
      p.length ≤ 2 ^ 63 →
      ∃ t, transact (.construct p) s = t ∧
        (∀ x : Word, t.cell x = p[x.toNat]?) ∧
        t = { cfg := s.cfg, mem := t.mem, ip := 0, rb := 0, es := .running, lo := 0, lov := false, inq := [],
              fk := none, fi := 0, busy := false, pending := s.pending,
              responses := s.responses ++ [.constructed] }) ∧
    (∀ n, s.cfg.progMax = some n ∨ s.cfg.memCells = some n → n < p.length →
      transact (.construct p) s = { s with responses := s.responses ++ [.refused] })

/-- R35: the state of State.reset, which is `Construct([])` (the model's choice of program, log 4). -/
def Obligations.ResetState : Prop :=
  State.reset = { cfg := Config.default, mem := [], ip := 0, rb := 0, es := .running, lo := 0, lov := false, inq := [],
                  fk := none, fi := 0, busy := false, pending := [], responses := [] } ∧
  ∀ x : Word, State.reset.cell x = none

/-- R254: the empty program is accepted and leaves no cell present; the first `Execute` then faults with MemoryFault(0) at
the fetch. -/
def Obligations.EmptyProgramFaultsAtFirstFetch : Prop :=
  ∀ (s : State) (q : List Word), s.busy = false → batchWf s.cfg q = true →
    ∃ c, transact (.construct []) s = c ∧ c.responses = s.responses ++ [.constructed] ∧ (∀ x : Word, c.cell x = none) ∧
      ∃ t, step (transact (.execute q) c) = .next t ∧ t.es = .faulted ∧ t.fk = some .memoryFault ∧ t.fi = 0 ∧
        t.responses = c.responses ++ [.returned (.fault .memoryFault 0)]

/-- R182, R183: `Execute(inputs)` on a machine that is Running (never called) or suspended starts a call: the queue holds the
inputs in order, `es` is Running, and nothing else changes. -/
def Obligations.ExecuteStartsCall : Prop :=
  ∀ (s : State) (q : List Word), s.busy = false → s.es = .running ∨ s.es = .suspendedOnOutput →
    (∀ n, s.cfg.inqDepth = some n → q.length ≤ n) →
    transact (.execute q) s = { s with inq := q, es := .running, busy := true }

/-- R190: a transaction issued while a call is in progress is refused and has no effect; D6: so is a batch longer than
INQ_DEPTH at any time (on a Halted or Faulted machine too: log 6). -/
def Obligations.RefusedTransactionsHaveNoEffect : Prop :=
  (∀ (s : State) (tr : Transaction), s.busy = true →
    transact tr s = { s with responses := s.responses ++ [.refused] }) ∧
  (∀ (s : State) (q : List Word) (n : Nat), s.cfg.inqDepth = some n → n < q.length →
    transact (.execute q) s = { s with responses := s.responses ++ [.refused] })

/-- R225: `Peek` answers with the element it asks for and changes nothing; in particular it makes no address present. That
a negative address is answered under the policy `refuse` too is the model's choice, log 11. -/
def Obligations.PeekIsReadOnly : Prop :=
  ∀ (s : State), s.busy = false →
    (∀ item, transact (.peek item) s = { s with responses := s.responses ++ [.peeked (s.peek item)] }) ∧
    (∀ x, s.peek (.cell x) = .cell (s.cell x)) ∧
    s.peek .ip = .word s.ip ∧ s.peek .rb = .word s.rb ∧ s.peek .es = .execState s.es ∧ s.peek .lo = .word s.lo ∧
    s.peek .lov = .flag s.lov ∧ s.peek .fk = .faultKind s.fk ∧ s.peek .fi = .word s.fi

/-- R183: the whole state machine of `es`, step by step. (The list of the host's transactions is the model's own, log 3; that
a batch or program over its bound is refused in every execution state, log 6.) -/
def Obligations.ExecutionStateTransitions : Prop :=
  ∀ s t : State, s.Inv → step s = .next t →
    (s.busy = true → s.es = .running ∧
      (t.busy = true ∧ t.es = .running ∨
       t.busy = false ∧ t.es = .suspendedOnOutput ∧ (∃ m, fetch s = .ok (.out m)) ∨
       t.busy = false ∧ t.es = .halted ∧ fetch s = .ok .hlt ∨
       t.busy = false ∧ t.es = .faulted ∧ ∃ k x, t = s.afterFault k x)) ∧
    (s.busy = false →
      (s.pending = [] → t = s) ∧
      (∀ p rest, s.pending = .construct p :: rest →
        t.busy = false ∧ t.es = if programWf s.cfg p then .running else s.es) ∧
      (∀ q rest, s.pending = .execute q :: rest →
        if batchWf s.cfg q = true ∧ (s.es = .running ∨ s.es = .suspendedOnOutput) then t.busy = true ∧ t.es = .running
        else t.busy = false ∧ t.es = s.es) ∧
      (∀ x rest, s.pending = .peek x :: rest → t.busy = false ∧ t.es = s.es))

/-! ### Invariants and whole runs -/

/-- The state after reset meets the invariant. -/
def Obligations.ResetMeetsInvariant : Prop := State.reset.Inv

/-- Every step, the host's transactions included, keeps the invariant: canonical memory, the bounds of the parameters, the
queue empty between calls (R28), `es` Running during a call and a fault latched exactly when Faulted (R29, R30), and a
halted machine standing on a HLT word (R22, R186). -/
def Obligations.StepKeepsInvariant : Prop :=
  ∀ s t : State, s.Inv → step s = .next t → t.Inv

/-- R186, R187, R219: once Halted or Faulted, the machine stays as it is through any number of steps and any transactions but
a `Construct`: every accepted `Execute` returns the same result again. (The value `none` where no output has been made is the
model's choice, log 5; the list of transactions is its own, log 3; that a batch over INQ_DEPTH is refused here too, where R182
and R186 ignore the inputs, is its reading of D6, log 6; the answer to a `Peek` of a negative address under `refuse` is its
choice, log 11.) -/
def Obligations.TerminalStatesAreStable : Prop :=
  ∀ (n : Nat) (s : State) (r : CallResult), s.busy = false →
    (s.es = .halted ∧ r = .ok (if s.lov then some s.lo else none) true ∨
      s.es = .faulted ∧ ∃ k, s.fk = some k ∧ r = .fault k s.fi) →
    (∀ tr ∈ s.pending, tr.isConstruct = false) →
    ∃ t, Host.Core.run core n s = .next t ∧ s.SameMachine t ∧ t.pending = s.pending.drop n ∧
      t.responses = s.responses ++ (s.pending.take n).map fun tr =>
        match tr with
        | .construct _ => .refused
        | .execute q => if batchWf s.cfg q then .returned r else .refused
        | .peek x => .peeked (s.peek x)

/-- R182, R184, R185: when a call returns, the machine is idle with an empty queue, and the result is what its state says:
`Ok(lo, false)` suspended, `Ok(lo, true)` halted, or the latched fault. (The value `none` where no output has been made is
the model's choice, log 5.) -/
def Obligations.ResultMatchesFinalState : Prop :=
  ∀ (fuel : Nat) (q : List Word) (s t : State) (r : CallResult), s.Inv → s.busy = false →
    execute fuel q s = some (r, t) →
    t.busy = false ∧ t.inq = [] ∧
    (t.es = .suspendedOnOutput ∧ r = .ok (some t.lo) false ∨
     t.es = .halted ∧ r = .ok (if t.lov then some t.lo else none) true ∨
     t.es = .faulted ∧ ∃ k, t.fk = some k ∧ r = .fault k t.fi)

/-- R182: a call under fuel is the machine's own steps: the state it returns in is the one that at most fuel + 1 steps reach
from the idle machine with that `Execute` as the host's next transaction. (The list of transactions is the model's own,
log 3.) -/
def Obligations.ExecuteIsRepeatedStep : Prop :=
  ∀ (fuel : Nat) (q : List Word) (s t : State) (r : CallResult), s.busy = false →
    execute fuel q s = some (r, t) →
    ∃ n ≤ fuel + 1, Host.Core.run core n { s with pending := .execute q :: s.pending } = .next t

/-- R185, R189: a call that did not run short of input ends in the same state, with the same result, when it is given more
input values after its own: the unconsumed remainder is discarded and never seen. -/
def Obligations.ExtraInputsAreNeverSeen : Prop :=
  ∀ (n : Nat) (s t : State) (extra : List Word), s.busy = true → runCall n s = some t →
    t.fk ≠ some .inputUnderflow →
    runCall n { s with inq := s.inq ++ extra } = some t
end

