-- ==== Sys2Proof/Laws/Memory.lean ====
section
/-! SUPPORT. The laws of memory as a list of present cells: reading after a write, and the canonical form, which every
memory operation keeps. -/

namespace Sys2Proof.Machine

/-- A cell reads as it was last stored. -/
theorem Memory.lookup_store_self (m : Memory) (a : Nat) (v : Word) : (m.store a v).lookup a = some v := by
  induction m with
  | nil => simp [Memory.store, Memory.lookup]
  | cons c m ih =>
    obtain ⟨k, u⟩ := c
    unfold Memory.store
    split
    · simp [Memory.lookup]
    · split
      · simp [Memory.lookup]
      · rename_i h
        simp [Memory.lookup, Ne.symm h, ih]

/-- A store leaves every other cell alone. -/
theorem Memory.lookup_store_of_ne (m : Memory) {a b : Nat} (v : Word) (h : b ≠ a) :
    (m.store a v).lookup b = m.lookup b := by
  induction m with
  | nil => simp [Memory.store, Memory.lookup, Ne.symm h]
  | cons c m ih =>
    obtain ⟨k, u⟩ := c
    unfold Memory.store
    split
    · simp [Memory.lookup, Ne.symm h]
    · split
      · rename_i hk
        subst hk
        simp [Memory.lookup, Ne.symm h]
      · simp [Memory.lookup, ih]

/-- The keys after a store are the stored key and the keys before. -/
theorem Memory.mem_store {m : Memory} {a : Nat} {v : Word} {c : Nat × Word} (h : c ∈ m.store a v) :
    c = (a, v) ∨ c ∈ m := by
  induction m with
  | nil => simpa [Memory.store] using h
  | cons d m ih =>
    obtain ⟨k, u⟩ := d
    unfold Memory.store at h
    split at h
    · simpa using h
    · split at h
      · rcases List.mem_cons.mp h with h | h
        · exact .inl h
        · exact .inr (List.mem_cons_of_mem _ h)
      · rcases List.mem_cons.mp h with h | h
        · exact .inr (by simp [h])
        · rcases ih h with h | h
          · exact .inl h
          · exact .inr (List.mem_cons_of_mem _ h)

/-- A store keeps the canonical form. -/
theorem Memory.store_wf {m : Memory} {a : Nat} (v : Word) (hm : m.wf) (ha : a < 2 ^ 64) : (m.store a v).wf := by
  refine ⟨?_, fun c hc => ?_⟩
  · have hs := hm.1
    clear hm
    induction m with
    | nil => simp [Memory.store]
    | cons d m ih =>
      obtain ⟨k, u⟩ := d
      obtain ⟨hk, hs'⟩ := List.pairwise_cons.mp hs
      unfold Memory.store
      split
      · rename_i hlt
        refine List.pairwise_cons.mpr ⟨fun c hc => ?_, hs⟩
        rcases List.mem_cons.mp hc with rfl | hc
        · exact hlt
        · exact lt_trans hlt (hk c hc)
      · split
        · rename_i he
          subst he
          exact List.pairwise_cons.mpr ⟨hk, hs'⟩
        · refine List.pairwise_cons.mpr ⟨fun c hc => ?_, ih hs'⟩
          rcases Memory.mem_store hc with rfl | hc
          · show k < a
            omega
          · exact hk c hc
  · rcases Memory.mem_store hc with rfl | hc
    · exact ha
    · exact hm.2 c hc

/-- A key that no cell has is not present. -/
theorem Memory.lookup_eq_none {m : Memory} {a : Nat} (h : ∀ c ∈ m, c.1 ≠ a) : m.lookup a = none := by
  induction m with
  | nil => rfl
  | cons c m ih =>
    obtain ⟨k, u⟩ := c
    have hk : k ≠ a := h (k, u) (by simp)
    simp [Memory.lookup, hk, ih fun c hc => h c (List.mem_cons_of_mem _ hc)]

/-- A store to a key that is present keeps the number of cells. -/
theorem Memory.length_store_present {m : Memory} {a : Nat} (v : Word) (hm : m.wf) (h : m.lookup a ≠ none) :
    (m.store a v).length = m.length := by
  have hs := hm.1
  clear hm
  induction m with
  | nil => simp [Memory.lookup] at h
  | cons c m ih =>
    obtain ⟨k, u⟩ := c
    obtain ⟨hk, hs⟩ := List.pairwise_cons.mp hs
    unfold Memory.store
    split
    · rename_i hlt
      exfalso
      apply h
      apply Memory.lookup_eq_none
      intro d hd
      rcases List.mem_cons.mp hd with rfl | hd
      · exact Nat.ne_of_gt hlt
      · exact Nat.ne_of_gt (lt_trans hlt (hk d hd))
    · split
      · simp
      · rename_i hne
        have h' : Memory.lookup m a ≠ none := by simpa [Memory.lookup, Ne.symm hne] using h
        simp [ih h' hs]

/-- A store makes at most one cell more. -/
theorem Memory.length_store_le (m : Memory) (a : Nat) (v : Word) : (m.store a v).length ≤ m.length + 1 := by
  induction m with
  | nil => simp [Memory.store]
  | cons c m ih =>
    obtain ⟨k, u⟩ := c
    unfold Memory.store
    split
    · simp
    · split
      · simp
      · simpa using ih

/-- A loaded program's keys. -/
theorem Memory.mem_load {p : List Word} {a : Nat} {c : Nat × Word} (h : c ∈ Memory.load a p) :
    a ≤ c.1 ∧ c.1 < a + p.length := by
  induction p generalizing a with
  | nil => simp [Memory.load] at h
  | cons w p ih =>
    rcases List.mem_cons.mp h with rfl | h
    · simp
    · have := ih h
      simp only [List.length_cons]
      omega

@[simp] theorem Memory.length_load (p : List Word) (a : Nat) : (Memory.load a p).length = p.length := by
  induction p generalizing a with
  | nil => rfl
  | cons w p ih => simp [Memory.load, ih]

/-- A loaded program is in the canonical form. -/
theorem Memory.load_wf {p : List Word} {a : Nat} (h : a + p.length ≤ 2 ^ 64) : (Memory.load a p).wf := by
  refine ⟨?_, fun c hc => lt_of_lt_of_le (Memory.mem_load hc).2 h⟩
  clear h
  induction p generalizing a with
  | nil => simp [Memory.load]
  | cons w p ih =>
    refine List.pairwise_cons.mpr ⟨fun c hc => ?_, ih⟩
    have := (Memory.mem_load hc).1
    show a < c.1
    omega

/-- The content of a loaded program. -/
theorem Memory.lookup_load (p : List Word) (a i : Nat) : (Memory.load a p).lookup (a + i) = p[i]? := by
  induction p generalizing a i with
  | nil => simp [Memory.load, Memory.lookup]
  | cons w p ih =>
    cases i with
    | zero => simp [Memory.load, Memory.lookup]
    | succ i =>
      have := ih (a + 1) i
      simp only [Memory.load, Memory.lookup, List.getElem?_cons_succ]
      rw [if_neg (by omega), show a + (i + 1) = a + 1 + i by omega, this]

/-- Reset memory is in the canonical form. -/
theorem reset_mem_wf : State.reset.mem.wf := by decide

/-- Placing an instruction keeps the canonical form. -/
theorem placeInstruction_wf {s : State} (nbits w : Nat) (h : s.mem.wf) : (placeInstruction s nbits w).wf := by
  unfold placeInstruction
  exact Memory.store_wf _ (Memory.store_wf _ (Memory.store_wf _ (Memory.store_wf _ h (BitVec.isLt _)) (BitVec.isLt _))
    (BitVec.isLt _)) (BitVec.isLt _)

/-- Two addresses are the same cell only if they are the same Word. -/
theorem cell_key_ne {a b : Word} (h : b ≠ a) : b.toNat ≠ a.toNat := fun e => h (BitVec.eq_of_toNat_eq e)

/-- R54 through `State.cell`: the stored cell. -/
theorem State.cell_store_self (s : State) (d v : Word) : (s.setMem (s.mem.store d.toNat v)).cell d = some v :=
  Memory.lookup_store_self _ _ _

/-- A store seen through `State.cell` at every other address. -/
theorem State.cell_store_of_ne (s : State) {d x : Word} (v : Word) (h : x ≠ d) :
    (s.setMem (s.mem.store d.toNat v)).cell x = s.cell x :=
  Memory.lookup_store_of_ne _ _ (cell_key_ne h)

end Sys2Proof.Machine
end

