-- ==== Sys2Proof/Laws/State.lean ====
section
/-! SUPPORT. One lemma per field of State per named update: what the update writes there, or that it leaves it. -/

namespace Sys2Proof.Machine

variable (s : State)

/-! ### setMem -/

@[simp] theorem State.setMem_cfg (m : Memory) : (s.setMem m).cfg = s.cfg := rfl
@[simp] theorem State.setMem_mem (m : Memory) : (s.setMem m).mem = m := rfl
@[simp] theorem State.setMem_ip (m : Memory) : (s.setMem m).ip = s.ip := rfl
@[simp] theorem State.setMem_rb (m : Memory) : (s.setMem m).rb = s.rb := rfl
@[simp] theorem State.setMem_es (m : Memory) : (s.setMem m).es = s.es := rfl
@[simp] theorem State.setMem_lo (m : Memory) : (s.setMem m).lo = s.lo := rfl
@[simp] theorem State.setMem_lov (m : Memory) : (s.setMem m).lov = s.lov := rfl
@[simp] theorem State.setMem_inq (m : Memory) : (s.setMem m).inq = s.inq := rfl
@[simp] theorem State.setMem_fk (m : Memory) : (s.setMem m).fk = s.fk := rfl
@[simp] theorem State.setMem_fi (m : Memory) : (s.setMem m).fi = s.fi := rfl
@[simp] theorem State.setMem_busy (m : Memory) : (s.setMem m).busy = s.busy := rfl
@[simp] theorem State.setMem_pending (m : Memory) : (s.setMem m).pending = s.pending := rfl
@[simp] theorem State.setMem_responses (m : Memory) : (s.setMem m).responses = s.responses := rfl

/-! ### setIp -/

@[simp] theorem State.setIp_cfg (a : Word) : (s.setIp a).cfg = s.cfg := rfl
@[simp] theorem State.setIp_mem (a : Word) : (s.setIp a).mem = s.mem := rfl
@[simp] theorem State.setIp_ip (a : Word) : (s.setIp a).ip = a := rfl
@[simp] theorem State.setIp_rb (a : Word) : (s.setIp a).rb = s.rb := rfl
@[simp] theorem State.setIp_es (a : Word) : (s.setIp a).es = s.es := rfl
@[simp] theorem State.setIp_lo (a : Word) : (s.setIp a).lo = s.lo := rfl
@[simp] theorem State.setIp_lov (a : Word) : (s.setIp a).lov = s.lov := rfl
@[simp] theorem State.setIp_inq (a : Word) : (s.setIp a).inq = s.inq := rfl
@[simp] theorem State.setIp_fk (a : Word) : (s.setIp a).fk = s.fk := rfl
@[simp] theorem State.setIp_fi (a : Word) : (s.setIp a).fi = s.fi := rfl
@[simp] theorem State.setIp_busy (a : Word) : (s.setIp a).busy = s.busy := rfl
@[simp] theorem State.setIp_pending (a : Word) : (s.setIp a).pending = s.pending := rfl
@[simp] theorem State.setIp_responses (a : Word) : (s.setIp a).responses = s.responses := rfl

/-! ### setRb -/

@[simp] theorem State.setRb_cfg (a : Word) : (s.setRb a).cfg = s.cfg := rfl
@[simp] theorem State.setRb_mem (a : Word) : (s.setRb a).mem = s.mem := rfl
@[simp] theorem State.setRb_ip (a : Word) : (s.setRb a).ip = s.ip := rfl
@[simp] theorem State.setRb_rb (a : Word) : (s.setRb a).rb = a := rfl
@[simp] theorem State.setRb_es (a : Word) : (s.setRb a).es = s.es := rfl
@[simp] theorem State.setRb_lo (a : Word) : (s.setRb a).lo = s.lo := rfl
@[simp] theorem State.setRb_lov (a : Word) : (s.setRb a).lov = s.lov := rfl
@[simp] theorem State.setRb_inq (a : Word) : (s.setRb a).inq = s.inq := rfl
@[simp] theorem State.setRb_fk (a : Word) : (s.setRb a).fk = s.fk := rfl
@[simp] theorem State.setRb_fi (a : Word) : (s.setRb a).fi = s.fi := rfl
@[simp] theorem State.setRb_busy (a : Word) : (s.setRb a).busy = s.busy := rfl
@[simp] theorem State.setRb_pending (a : Word) : (s.setRb a).pending = s.pending := rfl
@[simp] theorem State.setRb_responses (a : Word) : (s.setRb a).responses = s.responses := rfl

/-! ### setInq -/

@[simp] theorem State.setInq_cfg (q : List Word) : (s.setInq q).cfg = s.cfg := rfl
@[simp] theorem State.setInq_mem (q : List Word) : (s.setInq q).mem = s.mem := rfl
@[simp] theorem State.setInq_ip (q : List Word) : (s.setInq q).ip = s.ip := rfl
@[simp] theorem State.setInq_rb (q : List Word) : (s.setInq q).rb = s.rb := rfl
@[simp] theorem State.setInq_es (q : List Word) : (s.setInq q).es = s.es := rfl
@[simp] theorem State.setInq_lo (q : List Word) : (s.setInq q).lo = s.lo := rfl
@[simp] theorem State.setInq_lov (q : List Word) : (s.setInq q).lov = s.lov := rfl
@[simp] theorem State.setInq_inq (q : List Word) : (s.setInq q).inq = q := rfl
@[simp] theorem State.setInq_fk (q : List Word) : (s.setInq q).fk = s.fk := rfl
@[simp] theorem State.setInq_fi (q : List Word) : (s.setInq q).fi = s.fi := rfl
@[simp] theorem State.setInq_busy (q : List Word) : (s.setInq q).busy = s.busy := rfl
@[simp] theorem State.setInq_pending (q : List Word) : (s.setInq q).pending = s.pending := rfl
@[simp] theorem State.setInq_responses (q : List Word) : (s.setInq q).responses = s.responses := rfl

/-! ### setOutput -/

@[simp] theorem State.setOutput_cfg (v : Word) : (s.setOutput v).cfg = s.cfg := rfl
@[simp] theorem State.setOutput_mem (v : Word) : (s.setOutput v).mem = s.mem := rfl
@[simp] theorem State.setOutput_ip (v : Word) : (s.setOutput v).ip = s.ip := rfl
@[simp] theorem State.setOutput_rb (v : Word) : (s.setOutput v).rb = s.rb := rfl
@[simp] theorem State.setOutput_es (v : Word) : (s.setOutput v).es = s.es := rfl
@[simp] theorem State.setOutput_lo (v : Word) : (s.setOutput v).lo = v := rfl
@[simp] theorem State.setOutput_lov (v : Word) : (s.setOutput v).lov = true := rfl
@[simp] theorem State.setOutput_inq (v : Word) : (s.setOutput v).inq = s.inq := rfl
@[simp] theorem State.setOutput_fk (v : Word) : (s.setOutput v).fk = s.fk := rfl
@[simp] theorem State.setOutput_fi (v : Word) : (s.setOutput v).fi = s.fi := rfl
@[simp] theorem State.setOutput_busy (v : Word) : (s.setOutput v).busy = s.busy := rfl
@[simp] theorem State.setOutput_pending (v : Word) : (s.setOutput v).pending = s.pending := rfl
@[simp] theorem State.setOutput_responses (v : Word) : (s.setOutput v).responses = s.responses := rfl

/-! ### advance -/

@[simp] theorem State.advance_cfg (n : Nat) : (s.advance n).cfg = s.cfg := rfl
@[simp] theorem State.advance_mem (n : Nat) : (s.advance n).mem = s.mem := rfl
@[simp] theorem State.advance_ip (n : Nat) : (s.advance n).ip = addrPlus s.ip n := rfl
@[simp] theorem State.advance_rb (n : Nat) : (s.advance n).rb = s.rb := rfl
@[simp] theorem State.advance_es (n : Nat) : (s.advance n).es = s.es := rfl
@[simp] theorem State.advance_lo (n : Nat) : (s.advance n).lo = s.lo := rfl
@[simp] theorem State.advance_lov (n : Nat) : (s.advance n).lov = s.lov := rfl
@[simp] theorem State.advance_inq (n : Nat) : (s.advance n).inq = s.inq := rfl
@[simp] theorem State.advance_fk (n : Nat) : (s.advance n).fk = s.fk := rfl
@[simp] theorem State.advance_fi (n : Nat) : (s.advance n).fi = s.fi := rfl
@[simp] theorem State.advance_busy (n : Nat) : (s.advance n).busy = s.busy := rfl
@[simp] theorem State.advance_pending (n : Nat) : (s.advance n).pending = s.pending := rfl
@[simp] theorem State.advance_responses (n : Nat) : (s.advance n).responses = s.responses := rfl

/-! ### respond -/

@[simp] theorem State.respond_cfg (r : Response) : (s.respond r).cfg = s.cfg := rfl
@[simp] theorem State.respond_mem (r : Response) : (s.respond r).mem = s.mem := rfl
@[simp] theorem State.respond_ip (r : Response) : (s.respond r).ip = s.ip := rfl
@[simp] theorem State.respond_rb (r : Response) : (s.respond r).rb = s.rb := rfl
@[simp] theorem State.respond_es (r : Response) : (s.respond r).es = s.es := rfl
@[simp] theorem State.respond_lo (r : Response) : (s.respond r).lo = s.lo := rfl
@[simp] theorem State.respond_lov (r : Response) : (s.respond r).lov = s.lov := rfl
@[simp] theorem State.respond_inq (r : Response) : (s.respond r).inq = s.inq := rfl
@[simp] theorem State.respond_fk (r : Response) : (s.respond r).fk = s.fk := rfl
@[simp] theorem State.respond_fi (r : Response) : (s.respond r).fi = s.fi := rfl
@[simp] theorem State.respond_busy (r : Response) : (s.respond r).busy = s.busy := rfl
@[simp] theorem State.respond_pending (r : Response) : (s.respond r).pending = s.pending := rfl
@[simp] theorem State.respond_responses (r : Response) : (s.respond r).responses = s.responses ++ [r] := rfl

/-! ### endCall -/

@[simp] theorem State.endCall_cfg (e : ExecState) (r : CallResult) : (s.endCall e r).cfg = s.cfg := rfl
@[simp] theorem State.endCall_mem (e : ExecState) (r : CallResult) : (s.endCall e r).mem = s.mem := rfl
@[simp] theorem State.endCall_ip (e : ExecState) (r : CallResult) : (s.endCall e r).ip = s.ip := rfl
@[simp] theorem State.endCall_rb (e : ExecState) (r : CallResult) : (s.endCall e r).rb = s.rb := rfl
@[simp] theorem State.endCall_es (e : ExecState) (r : CallResult) : (s.endCall e r).es = e := rfl
@[simp] theorem State.endCall_lo (e : ExecState) (r : CallResult) : (s.endCall e r).lo = s.lo := rfl
@[simp] theorem State.endCall_lov (e : ExecState) (r : CallResult) : (s.endCall e r).lov = s.lov := rfl
@[simp] theorem State.endCall_inq (e : ExecState) (r : CallResult) : (s.endCall e r).inq = [] := rfl
@[simp] theorem State.endCall_fk (e : ExecState) (r : CallResult) : (s.endCall e r).fk = s.fk := rfl
@[simp] theorem State.endCall_fi (e : ExecState) (r : CallResult) : (s.endCall e r).fi = s.fi := rfl
@[simp] theorem State.endCall_busy (e : ExecState) (r : CallResult) : (s.endCall e r).busy = false := rfl
@[simp] theorem State.endCall_pending (e : ExecState) (r : CallResult) : (s.endCall e r).pending = s.pending := rfl
@[simp] theorem State.endCall_responses (e : ExecState) (r : CallResult) : (s.endCall e r).responses = s.responses ++ [.returned r] := rfl

/-! ### yieldCall -/

@[simp] theorem State.yieldCall_cfg : s.yieldCall.cfg = s.cfg := rfl
@[simp] theorem State.yieldCall_mem : s.yieldCall.mem = s.mem := rfl
@[simp] theorem State.yieldCall_ip : s.yieldCall.ip = s.ip := rfl
@[simp] theorem State.yieldCall_rb : s.yieldCall.rb = s.rb := rfl
@[simp] theorem State.yieldCall_es : s.yieldCall.es = .suspendedOnOutput := rfl
@[simp] theorem State.yieldCall_lo : s.yieldCall.lo = s.lo := rfl
@[simp] theorem State.yieldCall_lov : s.yieldCall.lov = s.lov := rfl
@[simp] theorem State.yieldCall_inq : s.yieldCall.inq = [] := rfl
@[simp] theorem State.yieldCall_fk : s.yieldCall.fk = s.fk := rfl
@[simp] theorem State.yieldCall_fi : s.yieldCall.fi = s.fi := rfl
@[simp] theorem State.yieldCall_busy : s.yieldCall.busy = false := rfl
@[simp] theorem State.yieldCall_pending : s.yieldCall.pending = s.pending := rfl
@[simp] theorem State.yieldCall_responses : s.yieldCall.responses = s.responses ++ [.returned (.ok s.value false)] := rfl

/-! ### haltCall -/

@[simp] theorem State.haltCall_cfg : s.haltCall.cfg = s.cfg := rfl
@[simp] theorem State.haltCall_mem : s.haltCall.mem = s.mem := rfl
@[simp] theorem State.haltCall_ip : s.haltCall.ip = s.ip := rfl
@[simp] theorem State.haltCall_rb : s.haltCall.rb = s.rb := rfl
@[simp] theorem State.haltCall_es : s.haltCall.es = .halted := rfl
@[simp] theorem State.haltCall_lo : s.haltCall.lo = s.lo := rfl
@[simp] theorem State.haltCall_lov : s.haltCall.lov = s.lov := rfl
@[simp] theorem State.haltCall_inq : s.haltCall.inq = [] := rfl
@[simp] theorem State.haltCall_fk : s.haltCall.fk = s.fk := rfl
@[simp] theorem State.haltCall_fi : s.haltCall.fi = s.fi := rfl
@[simp] theorem State.haltCall_busy : s.haltCall.busy = false := rfl
@[simp] theorem State.haltCall_pending : s.haltCall.pending = s.pending := rfl
@[simp] theorem State.haltCall_responses : s.haltCall.responses = s.responses ++ [.returned (.ok s.value true)] := rfl

/-! ### takeFault -/

@[simp] theorem State.takeFault_cfg (k : FaultKind) (x : Word) : (s.takeFault k x).cfg = s.cfg := rfl
@[simp] theorem State.takeFault_mem (k : FaultKind) (x : Word) : (s.takeFault k x).mem = s.mem := rfl
@[simp] theorem State.takeFault_ip (k : FaultKind) (x : Word) : (s.takeFault k x).ip = s.ip := rfl
@[simp] theorem State.takeFault_rb (k : FaultKind) (x : Word) : (s.takeFault k x).rb = s.rb := rfl
@[simp] theorem State.takeFault_es (k : FaultKind) (x : Word) : (s.takeFault k x).es = .faulted := rfl
@[simp] theorem State.takeFault_lo (k : FaultKind) (x : Word) : (s.takeFault k x).lo = s.lo := rfl
@[simp] theorem State.takeFault_lov (k : FaultKind) (x : Word) : (s.takeFault k x).lov = s.lov := rfl
@[simp] theorem State.takeFault_inq (k : FaultKind) (x : Word) : (s.takeFault k x).inq = [] := rfl
@[simp] theorem State.takeFault_fk (k : FaultKind) (x : Word) : (s.takeFault k x).fk = some k := rfl
@[simp] theorem State.takeFault_fi (k : FaultKind) (x : Word) : (s.takeFault k x).fi = x := rfl
@[simp] theorem State.takeFault_busy (k : FaultKind) (x : Word) : (s.takeFault k x).busy = false := rfl
@[simp] theorem State.takeFault_pending (k : FaultKind) (x : Word) : (s.takeFault k x).pending = s.pending := rfl
@[simp] theorem State.takeFault_responses (k : FaultKind) (x : Word) : (s.takeFault k x).responses = s.responses ++ [.returned (.fault k x)] := rfl

/-! ### beginCall -/

@[simp] theorem State.beginCall_cfg (q : List Word) : (s.beginCall q).cfg = s.cfg := rfl
@[simp] theorem State.beginCall_mem (q : List Word) : (s.beginCall q).mem = s.mem := rfl
@[simp] theorem State.beginCall_ip (q : List Word) : (s.beginCall q).ip = s.ip := rfl
@[simp] theorem State.beginCall_rb (q : List Word) : (s.beginCall q).rb = s.rb := rfl
@[simp] theorem State.beginCall_es (q : List Word) : (s.beginCall q).es = .running := rfl
@[simp] theorem State.beginCall_lo (q : List Word) : (s.beginCall q).lo = s.lo := rfl
@[simp] theorem State.beginCall_lov (q : List Word) : (s.beginCall q).lov = s.lov := rfl
@[simp] theorem State.beginCall_inq (q : List Word) : (s.beginCall q).inq = q := rfl
@[simp] theorem State.beginCall_fk (q : List Word) : (s.beginCall q).fk = s.fk := rfl
@[simp] theorem State.beginCall_fi (q : List Word) : (s.beginCall q).fi = s.fi := rfl
@[simp] theorem State.beginCall_busy (q : List Word) : (s.beginCall q).busy = true := rfl
@[simp] theorem State.beginCall_pending (q : List Word) : (s.beginCall q).pending = s.pending := rfl
@[simp] theorem State.beginCall_responses (q : List Word) : (s.beginCall q).responses = s.responses := rfl

/-! ### construct -/

@[simp] theorem State.construct_cfg (p : List Word) : (s.construct p).cfg = s.cfg := rfl
@[simp] theorem State.construct_mem (p : List Word) : (s.construct p).mem = Memory.load 0 p := rfl
@[simp] theorem State.construct_ip (p : List Word) : (s.construct p).ip = 0 := rfl
@[simp] theorem State.construct_rb (p : List Word) : (s.construct p).rb = 0 := rfl
@[simp] theorem State.construct_es (p : List Word) : (s.construct p).es = .running := rfl
@[simp] theorem State.construct_lo (p : List Word) : (s.construct p).lo = 0 := rfl
@[simp] theorem State.construct_lov (p : List Word) : (s.construct p).lov = false := rfl
@[simp] theorem State.construct_inq (p : List Word) : (s.construct p).inq = [] := rfl
@[simp] theorem State.construct_fk (p : List Word) : (s.construct p).fk = none := rfl
@[simp] theorem State.construct_fi (p : List Word) : (s.construct p).fi = 0 := rfl
@[simp] theorem State.construct_busy (p : List Word) : (s.construct p).busy = false := rfl
@[simp] theorem State.construct_pending (p : List Word) : (s.construct p).pending = s.pending := rfl
@[simp] theorem State.construct_responses (p : List Word) : (s.construct p).responses = s.responses := rfl

/-! ### Views that depend on few fields -/

@[simp] theorem State.cell_setIp (a x : Word) : (s.setIp a).cell x = s.cell x := rfl
@[simp] theorem State.cell_setRb (a x : Word) : (s.setRb a).cell x = s.cell x := rfl
@[simp] theorem State.cell_setInq (q : List Word) (x : Word) : (s.setInq q).cell x = s.cell x := rfl
@[simp] theorem State.cell_setOutput (v x : Word) : (s.setOutput v).cell x = s.cell x := rfl
@[simp] theorem State.cell_advance (n : Nat) (x : Word) : (s.advance n).cell x = s.cell x := rfl
@[simp] theorem State.cell_respond (r : Response) (x : Word) : (s.respond r).cell x = s.cell x := rfl
@[simp] theorem State.cell_yieldCall (x : Word) : s.yieldCall.cell x = s.cell x := rfl
@[simp] theorem State.cell_haltCall (x : Word) : s.haltCall.cell x = s.cell x := rfl
@[simp] theorem State.cell_takeFault (k : FaultKind) (i x : Word) : (s.takeFault k i).cell x = s.cell x := rfl
@[simp] theorem State.cell_beginCall (q : List Word) (x : Word) : (s.beginCall q).cell x = s.cell x := rfl
@[simp] theorem State.value_setInq (q : List Word) : (s.setInq q).value = s.value := rfl
@[simp] theorem State.value_advance (n : Nat) : (s.advance n).value = s.value := rfl
@[simp] theorem State.value_setOutput (v : Word) : (s.setOutput v).value = some v := rfl

end Sys2Proof.Machine
end

