-- ==== Sys2Proof/Laws/Ops.lean ====
section
/-! SUPPORT. One lemma per shared operation that says everything it can answer; later proofs cite these. -/

namespace Sys2Proof.Machine

/-- A bind that answers a value: both parts do. -/
theorem except_bind_ok {ε α β : Type} {x : Except ε α} {f : α → Except ε β} {b : β} (h : (x >>= f) = .ok b) :
    ∃ a, x = .ok a ∧ f a = .ok b := by
  cases x with
  | error e => cases h
  | ok a => exact ⟨a, rfl, h⟩

/-- A bind that stops: its first part does, or its second. -/
theorem except_bind_error {ε α β : Type} {x : Except ε α} {f : α → Except ε β} {e : ε} (h : (x >>= f) = .error e) :
    x = .error e ∨ ∃ a, x = .ok a ∧ f a = .error e := by
  cases x with
  | error e' =>
    cases h
    exact .inl rfl
  | ok a => exact .inr ⟨a, rfl, h⟩

@[simp] theorem except_ok_bind {ε α β : Type} (a : α) (f : α → Except ε β) : ((Except.ok a : Except ε α) >>= f) = f a := rfl

@[simp] theorem except_error_bind {ε α β : Type} (e : ε) (f : α → Except ε β) :
    ((Except.error e : Except ε α) >>= f) = .error e := rfl

/-- What `MemRead` answers with a value. -/
theorem memRead_ok {s : State} {a v : Word} (h : memRead s a = .ok v) :
    Config.refuses s.cfg a = false ∧ s.cell a = some v := by
  unfold memRead at h
  split at h
  · cases h
  · rename_i hr
    split at h
    · cases h
      rename_i hc
      exact ⟨by simpa using hr, hc⟩
    · cases h

/-- Where `MemRead` stops. -/
theorem memRead_error {s : State} {a : Word} {e : Stop} (h : memRead s a = .error e) :
    (e = .stuck (.negativeAddress a) ∧ Config.refuses s.cfg a = true) ∨
    (e = .raise .memoryFault a ∧ Config.refuses s.cfg a = false ∧ s.cell a = none) := by
  unfold memRead at h
  split at h
  · cases h
    rename_i hr
    exact .inl ⟨rfl, hr⟩
  · rename_i hr
    split at h
    · cases h
    · cases h
      rename_i hc
      exact .inr ⟨rfl, by simpa using hr, hc⟩

/-- What `MemWrite` answers with a state. -/
theorem memWrite_ok {s t : State} {a v : Word} (h : memWrite s a v = .ok t) :
    Config.refuses s.cfg a = false ∧ (s.cell a = none → s.full = false) ∧ t = s.setMem (s.mem.store a.toNat v) := by
  unfold memWrite at h
  split at h
  · cases h
  · rename_i hr
    split at h
    · cases h
    · rename_i hf
      cases h
      refine ⟨by simpa using hr, fun hc => ?_, rfl⟩
      simpa [hc] using hf

/-- Where `MemWrite` stops. -/
theorem memWrite_error {s : State} {a v : Word} {e : Stop} (h : memWrite s a v = .error e) :
    (e = .stuck (.negativeAddress a) ∧ Config.refuses s.cfg a = true) ∨
    (e = .raise .capacityFault a ∧ Config.refuses s.cfg a = false ∧ s.cell a = none ∧ s.full = true) := by
  unfold memWrite at h
  split at h
  · cases h
    rename_i hr
    exact .inl ⟨rfl, hr⟩
  · rename_i hr
    split at h
    · cases h
      rename_i hf
      simp only [Bool.and_eq_true, Option.isNone_iff_eq_none] at hf
      exact .inr ⟨rfl, by simpa using hr, hf.1, hf.2⟩
    · cases h

/-- A stop of the operand resolver: a negative address under `refuse`, or a cell that is not present. -/
def Stop.ofRead (e : Stop) : Prop := (∃ a, e = .stuck (.negativeAddress a)) ∨ ∃ a, e = .raise .memoryFault a

/-- A stop of a write. -/
def Stop.ofWrite (e : Stop) : Prop := (∃ a, e = .stuck (.negativeAddress a)) ∨ ∃ a, e = .raise .capacityFault a

theorem memRead_ofRead {s : State} {a : Word} {e : Stop} (h : memRead s a = .error e) : e.ofRead := by
  rcases memRead_error h with ⟨h, -⟩ | ⟨h, -⟩
  · exact .inl ⟨a, h⟩
  · exact .inr ⟨a, h⟩

theorem memWrite_ofWrite {s : State} {a v : Word} {e : Stop} (h : memWrite s a v = .error e) : e.ofWrite := by
  rcases memWrite_error h with ⟨h, -⟩ | ⟨h, -⟩
  · exact .inl ⟨a, h⟩
  · exact .inr ⟨a, h⟩

theorem readVal_ofRead {s : State} {k : Nat} {m : AddrMode} {e : Stop} (h : readVal s k m = .error e) : e.ofRead := by
  rcases except_bind_error h with h | ⟨w, -, h⟩
  · exact memRead_ofRead h
  · cases m with
    | position => exact memRead_ofRead h
    | immediate => cases h
    | relative => exact memRead_ofRead h

theorem writeAddr_ofRead {s : State} {k : Nat} {m : AddrMode} {e : Stop} (h : writeAddr s k m = .error e) :
    e.ofRead := by
  rcases except_bind_error h with h | ⟨w, -, h⟩
  · exact memRead_ofRead h
  · cases m <;> cases h

/-- Resolving an operand does not look at the input queue. -/
@[simp] theorem readVal_setInq (s : State) (q : List Word) (k : Nat) (m : AddrMode) :
    readVal (s.setInq q) k m = readVal s k m := rfl

@[simp] theorem writeAddr_setInq (s : State) (q : List Word) (k : Nat) (m : AddrMode) :
    writeAddr (s.setInq q) k m = writeAddr s k m := rfl

/-- What the shape of ADD, MUL, LT and EQ answers when it completes. -/
theorem storeBinary_ok {f : Word → Word → Word} {m1 m2 m3 : AddrMode} {s : State} {r : Completion × State}
    (h : storeBinary f m1 m2 m3 s = .ok r) :
    ∃ a b d, readVal s 1 m1 = .ok a ∧ readVal s 2 m2 = .ok b ∧ writeAddr s 3 m3 = .ok d ∧
      memWrite s d (f a b) = .ok (s.setMem (s.mem.store d.toNat (f a b))) ∧
      r = (.proceed, (s.setMem (s.mem.store d.toNat (f a b))).advance 4) := by
  obtain ⟨a, ha, h⟩ := except_bind_ok h
  obtain ⟨b, hb, h⟩ := except_bind_ok h
  obtain ⟨d, hd, h⟩ := except_bind_ok h
  obtain ⟨t, ht, h⟩ := except_bind_ok h
  cases h
  obtain ⟨-, -, rfl⟩ := memWrite_ok ht
  exact ⟨a, b, d, ha, hb, hd, ht, rfl⟩

theorem storeBinary_error {f : Word → Word → Word} {m1 m2 m3 : AddrMode} {s : State} {e : Stop}
    (h : storeBinary f m1 m2 m3 s = .error e) : e.ofRead ∨ e.ofWrite := by
  rcases except_bind_error h with h | ⟨a, -, h⟩
  · exact .inl (readVal_ofRead h)
  rcases except_bind_error h with h | ⟨b, -, h⟩
  · exact .inl (readVal_ofRead h)
  rcases except_bind_error h with h | ⟨d, -, h⟩
  · exact .inl (writeAddr_ofRead h)
  rcases except_bind_error h with h | ⟨t, -, h⟩
  · exact .inr (memWrite_ofWrite h)
  · cases h

/-- What the shape of JNZ and JZ answers when it completes. -/
theorem jumpIf_ok {c : Word → Bool} {m1 m2 : AddrMode} {s : State} {r : Completion × State}
    (h : jumpIf c m1 m2 s = .ok r) :
    ∃ a t, readVal s 1 m1 = .ok a ∧ readVal s 2 m2 = .ok t ∧
      r = (.proceed, if c a then s.setIp t else s.advance 3) := by
  obtain ⟨a, ha, h⟩ := except_bind_ok h
  obtain ⟨t, ht, h⟩ := except_bind_ok h
  cases h
  exact ⟨a, t, ha, ht, rfl⟩

theorem jumpIf_error {c : Word → Bool} {m1 m2 : AddrMode} {s : State} {e : Stop}
    (h : jumpIf c m1 m2 s = .error e) : e.ofRead := by
  rcases except_bind_error h with h | ⟨a, -, h⟩
  · exact readVal_ofRead h
  rcases except_bind_error h with h | ⟨t, -, h⟩
  · exact readVal_ofRead h
  · cases h

/-- What IN answers when it completes: the queue was not empty. -/
theorem inputTo_ok {m1 : AddrMode} {s : State} {r : Completion × State} (h : inputTo m1 s = .ok r) :
    ∃ d v rest, writeAddr s 1 m1 = .ok d ∧ s.inq = v :: rest ∧
      memWrite (s.setInq rest) d v = .ok ((s.setInq rest).setMem (s.mem.store d.toNat v)) ∧
      r = (.proceed, ((s.setInq rest).setMem (s.mem.store d.toNat v)).advance 2) := by
  obtain ⟨d, hd, h⟩ := except_bind_ok h
  cases hq : s.inq with
  | nil => simp [hq] at h
  | cons v rest =>
    simp only [hq] at h
    obtain ⟨t, ht, h⟩ := except_bind_ok h
    cases h
    obtain ⟨-, -, rfl⟩ := memWrite_ok ht
    exact ⟨d, v, rest, hd, rfl, ht, rfl⟩

theorem inputTo_error {m1 : AddrMode} {s : State} {e : Stop} (h : inputTo m1 s = .error e) :
    e.ofRead ∨ e.ofWrite ∨ (s.inq = [] ∧ e = .raise .inputUnderflow s.ip) := by
  rcases except_bind_error h with h | ⟨d, -, h⟩
  · exact .inl (writeAddr_ofRead h)
  cases hq : s.inq with
  | nil =>
    simp only [hq] at h
    cases h
    exact .inr (.inr ⟨rfl, rfl⟩)
  | cons v rest =>
    simp only [hq] at h
    rcases except_bind_error h with h | ⟨t, -, h⟩
    · exact .inr (.inl (memWrite_ofWrite h))
    · cases h

theorem outputFrom_ok {m1 : AddrMode} {s : State} {r : Completion × State} (h : outputFrom m1 s = .ok r) :
    ∃ a, readVal s 1 m1 = .ok a ∧ r = (.yield, (s.setOutput a).advance 2) := by
  obtain ⟨a, ha, h⟩ := except_bind_ok h
  cases h
  exact ⟨a, ha, rfl⟩

theorem outputFrom_error {m1 : AddrMode} {s : State} {e : Stop} (h : outputFrom m1 s = .error e) : e.ofRead := by
  rcases except_bind_error h with h | ⟨a, -, h⟩
  · exact readVal_ofRead h
  · cases h

theorem adjustBase_ok {m1 : AddrMode} {s : State} {r : Completion × State} (h : adjustBase m1 s = .ok r) :
    ∃ a, readVal s 1 m1 = .ok a ∧ r = (.proceed, (s.setRb (aluAdd s.rb a)).advance 2) := by
  obtain ⟨a, ha, h⟩ := except_bind_ok h
  cases h
  exact ⟨a, ha, rfl⟩

theorem adjustBase_error {m1 : AddrMode} {s : State} {e : Stop} (h : adjustBase m1 s = .error e) : e.ofRead := by
  rcases except_bind_error h with h | ⟨a, -, h⟩
  · exact readVal_ofRead h
  · cases h

/-- What `settle` can answer with a next state. -/
theorem settle_next {s t : State} {r : Except Stop (Completion × State)} (h : settle s r = .next t) :
    r = .ok (.proceed, t) ∨ (∃ u, r = .ok (.yield, u) ∧ t = u.yieldCall) ∨
    (∃ u, r = .ok (.halt, u) ∧ t = u.haltCall) ∨ ∃ k x, r = .error (.raise k x) ∧ t = s.takeFault k x := by
  unfold settle at h
  split at h
  · cases h; exact .inl rfl
  · cases h; exact .inr (.inl ⟨_, rfl, rfl⟩)
  · cases h; exact .inr (.inr (.inl ⟨_, rfl, rfl⟩))
  · cases h; exact .inr (.inr (.inr ⟨_, _, rfl, rfl⟩))
  · cases h

end Sys2Proof.Machine
end

