-- ==== Sys2Proof/Laws/Exec.lean ====
section
/-! SUPPORT. What an instruction can do, said once: `ExecCase i s t` lists how `exec i s` can answer `t`, and `exec_cases`
says that there is no other way. Invariant and frame proofs take its cases instead of unfolding `exec`. -/

namespace Sys2Proof.Machine

/-- The four instructions of the shape of `storeBinary`, each with its function. -/
inductive BinaryOf : Instr → (Word → Word → Word) → AddrMode → AddrMode → AddrMode → Prop where
  | add (a b d : AddrMode) : BinaryOf (.add a b d) aluAdd a b d
  | mul (a b d : AddrMode) : BinaryOf (.mul a b d) aluMul a b d
  | lt (a b d : AddrMode) : BinaryOf (.lt a b d) cmpLt a b d
  | eq (a b d : AddrMode) : BinaryOf (.eq a b d) cmpEq a b d

/-- The two jumps, each with its condition. -/
inductive JumpOf : Instr → (Word → Bool) → AddrMode → AddrMode → Prop where
  | jnz (a t : AddrMode) : JumpOf (.jnz a t) wordTrue a t
  | jz (a t : AddrMode) : JumpOf (.jz a t) (fun x => !wordTrue x) a t

/-- The ways in which an instruction answers a next state. -/
inductive ExecCase : Instr → State → State → Prop where
  | fault {i : Instr} {s : State} (k : FaultKind) (x : Word) : ExecCase i s (s.takeFault k x)
  | binary {i : Instr} {s : State} {f : Word → Word → Word} {m1 m2 m3 : AddrMode} {a b d : Word}
      (hi : BinaryOf i f m1 m2 m3) (ha : readVal s 1 m1 = .ok a) (hb : readVal s 2 m2 = .ok b)
      (hd : writeAddr s 3 m3 = .ok d)
      (hw : memWrite s d (f a b) = .ok (s.setMem (s.mem.store d.toNat (f a b)))) :
      ExecCase i s ((s.setMem (s.mem.store d.toNat (f a b))).advance 4)
  | input {s : State} {m1 : AddrMode} {d v : Word} {rest : List Word} (hd : writeAddr s 1 m1 = .ok d)
      (hq : s.inq = v :: rest)
      (hw : memWrite (s.setInq rest) d v = .ok ((s.setInq rest).setMem (s.mem.store d.toNat v))) :
      ExecCase (.inp m1) s (((s.setInq rest).setMem (s.mem.store d.toNat v)).advance 2)
  | output {s : State} {m1 : AddrMode} {a : Word} (ha : readVal s 1 m1 = .ok a) :
      ExecCase (.out m1) s ((s.setOutput a).advance 2).yieldCall
  | jump {i : Instr} {s : State} {c : Word → Bool} {m1 m2 : AddrMode} {a t : Word} (hi : JumpOf i c m1 m2)
      (ha : readVal s 1 m1 = .ok a) (ht : readVal s 2 m2 = .ok t) :
      ExecCase i s (if c a then s.setIp t else s.advance 3)
  | base {s : State} {m1 : AddrMode} {a : Word} (ha : readVal s 1 m1 = .ok a) :
      ExecCase (.arb m1) s ((s.setRb (aluAdd s.rb a)).advance 2)
  | halt {s : State} : ExecCase .hlt s s.haltCall

theorem exec_binary {i : Instr} {f : Word → Word → Word} {m1 m2 m3 : AddrMode} (hi : BinaryOf i f m1 m2 m3)
    (s : State) : exec i s = settle s (storeBinary f m1 m2 m3 s) := by
  cases hi <;> rfl

theorem exec_jump {i : Instr} {c : Word → Bool} {m1 m2 : AddrMode} (hi : JumpOf i c m1 m2) (s : State) :
    exec i s = settle s (jumpIf c m1 m2 s) := by
  cases hi <;> rfl

theorem binary_cases {i : Instr} {f : Word → Word → Word} {m1 m2 m3 : AddrMode} {s t : State}
    (hi : BinaryOf i f m1 m2 m3) (h : exec i s = .next t) : ExecCase i s t := by
  rw [exec_binary hi] at h
  rcases settle_next h with e | ⟨u, e, rfl⟩ | ⟨u, e, rfl⟩ | ⟨k, x, -, rfl⟩
  · obtain ⟨a, b, d, ha, hb, hd, hw, hr⟩ := storeBinary_ok e
    cases hr
    exact .binary hi ha hb hd hw
  · obtain ⟨a, b, d, ha, hb, hd, hw, hr⟩ := storeBinary_ok e
    cases hr
  · obtain ⟨a, b, d, ha, hb, hd, hw, hr⟩ := storeBinary_ok e
    cases hr
  · exact .fault k x

theorem jump_cases {i : Instr} {c : Word → Bool} {m1 m2 : AddrMode} {s t : State} (hi : JumpOf i c m1 m2)
    (h : exec i s = .next t) : ExecCase i s t := by
  rw [exec_jump hi] at h
  rcases settle_next h with e | ⟨u, e, rfl⟩ | ⟨u, e, rfl⟩ | ⟨k, x, -, rfl⟩
  · obtain ⟨a, t, ha, ht, hr⟩ := jumpIf_ok e
    cases hr
    exact .jump hi ha ht
  · obtain ⟨a, t, ha, ht, hr⟩ := jumpIf_ok e
    cases hr
  · obtain ⟨a, t, ha, ht, hr⟩ := jumpIf_ok e
    cases hr
  · exact .fault k x

/-- The inversion of `exec`: every next state it answers is one of `ExecCase`. -/
theorem exec_cases {i : Instr} {s t : State} (h : exec i s = .next t) : ExecCase i s t := by
  cases i with
  | add a b d => exact binary_cases (.add a b d) h
  | mul a b d => exact binary_cases (.mul a b d) h
  | lt a b d => exact binary_cases (.lt a b d) h
  | eq a b d => exact binary_cases (.eq a b d) h
  | jnz a d => exact jump_cases (.jnz a d) h
  | jz a d => exact jump_cases (.jz a d) h
  | inp d =>
    rcases settle_next h with e | ⟨u, e, rfl⟩ | ⟨u, e, rfl⟩ | ⟨k, x, -, rfl⟩
    · obtain ⟨d, v, rest, hd, hq, hw, hr⟩ := inputTo_ok e
      cases hr
      exact .input hd hq hw
    · obtain ⟨d, v, rest, hd, hq, hw, hr⟩ := inputTo_ok e
      cases hr
    · obtain ⟨d, v, rest, hd, hq, hw, hr⟩ := inputTo_ok e
      cases hr
    · exact .fault k x
  | out a =>
    rcases settle_next h with e | ⟨u, e, rfl⟩ | ⟨u, e, rfl⟩ | ⟨k, x, -, rfl⟩
    · obtain ⟨a, ha, hr⟩ := outputFrom_ok e
      cases hr
    · obtain ⟨a, ha, hr⟩ := outputFrom_ok e
      cases hr
      exact .output ha
    · obtain ⟨a, ha, hr⟩ := outputFrom_ok e
      cases hr
    · exact .fault k x
  | arb a =>
    rcases settle_next h with e | ⟨u, e, rfl⟩ | ⟨u, e, rfl⟩ | ⟨k, x, -, rfl⟩
    · obtain ⟨a, ha, hr⟩ := adjustBase_ok e
      cases hr
      exact .base ha
    · obtain ⟨a, ha, hr⟩ := adjustBase_ok e
      cases hr
    · obtain ⟨a, ha, hr⟩ := adjustBase_ok e
      cases hr
    · exact .fault k x
  | hlt =>
    cases h
    exact .halt

/-- What a fetch answers with an instruction. -/
theorem fetch_ok {s : State} {i : Instr} (h : fetch s = .ok i) :
    ∃ raw, memRead s s.ip = .ok raw ∧ decode raw = .ok i := by
  obtain ⟨raw, hr, h⟩ := except_bind_ok h
  refine ⟨raw, hr, ?_⟩
  split at h
  · cases h
    assumption
  · cases h

/-- Where a fetch stops. -/
theorem fetch_error {s : State} {e : Stop} (h : fetch s = .error e) :
    memRead s s.ip = .error e ∨
    ∃ raw f, memRead s s.ip = .ok raw ∧ decode raw = .error f ∧ e = .raise (decodeFaultKind f) raw := by
  rcases except_bind_error h with h | ⟨raw, hr, h⟩
  · exact .inl h
  · split at h
    · cases h
    · cases h
      rename_i f hf
      exact .inr ⟨raw, f, hr, hf, rfl⟩

/-- What one step can answer with a next state. -/
theorem step_cases {s t : State} (h : step s = .next t) :
    (s.busy = true ∧ s.es = .running ∧ ∃ i, fetch s = .ok i ∧ exec i s = .next t) ∨
    (s.busy = true ∧ s.es = .running ∧ ∃ k x, fetch s = .error (.raise k x) ∧ t = s.takeFault k x) ∨
    (s.busy = false ∧ t = hostMove s) := by
  unfold step at h
  split at h
  · rename_i hb
    split at h
    · rename_i he
      unfold stepInstr at h
      split at h
      · rename_i i hf
        exact .inl ⟨hb, he, i, hf, h⟩
      · rename_i e hf
        rcases settle_next h with h | ⟨u, h, -⟩ | ⟨u, h, -⟩ | ⟨k, x, h, ht⟩
        · cases h
        · cases h
        · cases h
        · cases h
          exact .inr (.inl ⟨hb, he, k, x, hf, ht⟩)
    · cases h
  · rename_i hb
    cases h
    exact .inr (.inr ⟨by simpa using hb, rfl⟩)

end Sys2Proof.Machine
end

