-- ==== Sys2Proof/Laws/HostPort.lean ====
section
/-! SUPPORT. What a transaction can do, said once. -/

namespace Sys2Proof.Machine

/-- The ways in which a transaction changes the state. -/
inductive TransactCase : Transaction → State → State → Prop where
  | refused {t : Transaction} {s : State} : TransactCase t s (s.respond .refused)
  | constructed {s : State} {p : List Word} (hb : s.busy = false) (hp : programWf s.cfg p = true) :
      TransactCase (.construct p) s ((s.construct p).respond .constructed)
  | started {s : State} {q : List Word} (hb : s.busy = false) (hq : batchWf s.cfg q = true)
      (he : s.es = .running ∨ s.es = .suspendedOnOutput) : TransactCase (.execute q) s (s.beginCall q)
  | halted {s : State} {q : List Word} (hb : s.busy = false) (hq : batchWf s.cfg q = true) (he : s.es = .halted) :
      TransactCase (.execute q) s (s.respond (.returned (.ok s.value true)))
  | faulted {s : State} {q : List Word} {k : FaultKind} (hb : s.busy = false) (hq : batchWf s.cfg q = true)
      (he : s.es = .faulted) (hk : s.fk = some k) :
      TransactCase (.execute q) s (s.respond (.returned (.fault k s.fi)))
  | peeked {s : State} {x : PeekItem} (hb : s.busy = false) :
      TransactCase (.peek x) s (s.respond (.peeked (s.peek x)))

/-- The inversion of `transact`. -/
theorem transact_cases (t : Transaction) (s : State) : TransactCase t s (transact t s) := by
  unfold transact
  split
  · exact .refused
  · rename_i hb
    have hb : s.busy = false := by simpa using hb
    cases t with
    | construct p =>
      dsimp only
      split
      · rename_i hp
        exact .constructed hb hp
      · exact .refused
    | execute q =>
      dsimp only
      split
      · rename_i hq
        unfold State.startExecute
        split
        · rename_i he
          split
          · rename_i k hk
            exact .faulted hb hq he hk
          · exact .refused
        · rename_i he
          exact .halted hb hq he
        · rename_i he
          exact .started hb hq (.inl he)
        · rename_i he
          exact .started hb hq (.inr he)
      · exact .refused
    | peek x => exact .peeked hb

/-- An idle step either holds the state or runs the next transaction. -/
theorem hostMove_cases (s : State) :
    (s.pending = [] ∧ hostMove s = s) ∨
    ∃ t rest, s.pending = t :: rest ∧ hostMove s = transact t { s with pending := rest } := by
  unfold hostMove
  cases hp : s.pending with
  | nil => exact .inl ⟨rfl, rfl⟩
  | cons t rest => exact .inr ⟨t, rest, rfl, rfl⟩

end Sys2Proof.Machine
end

