-- ==== Sys2Proof/Laws/PerInstr.lean ====
section
/-! SUPPORT. Statements made for every instruction as syntax, one lemma per constructor. -/

namespace Sys2Proof.Laws.EncodedFields

/-- R81, R93: the instruction word of `i` is not negative, its two low digits are the opcode, and the digits above them
are those of the modes. -/
def Statement (i : Instr) : Prop :=
  0 ≤ (encode i).toInt ∧ (encode i).toNat % 100 = i.opcode ∧ (encode i).toNat / 100 = modeDigits i.modes

theorem add (a b dst : AddrMode) : Statement (.add a b dst) := by
  cases a <;> cases b <;> cases dst <;> exact ⟨by decide, by decide, by decide⟩

theorem mul (a b dst : AddrMode) : Statement (.mul a b dst) := by
  cases a <;> cases b <;> cases dst <;> exact ⟨by decide, by decide, by decide⟩

theorem inp (dst : AddrMode) : Statement (.inp dst) := by
  cases dst <;> exact ⟨by decide, by decide, by decide⟩

theorem out (a : AddrMode) : Statement (.out a) := by
  cases a <;> exact ⟨by decide, by decide, by decide⟩

theorem jnz (a target : AddrMode) : Statement (.jnz a target) := by
  cases a <;> cases target <;> exact ⟨by decide, by decide, by decide⟩

theorem jz (a target : AddrMode) : Statement (.jz a target) := by
  cases a <;> cases target <;> exact ⟨by decide, by decide, by decide⟩

theorem lt (a b dst : AddrMode) : Statement (.lt a b dst) := by
  cases a <;> cases b <;> cases dst <;> exact ⟨by decide, by decide, by decide⟩

theorem eq (a b dst : AddrMode) : Statement (.eq a b dst) := by
  cases a <;> cases b <;> cases dst <;> exact ⟨by decide, by decide, by decide⟩

theorem arb (a : AddrMode) : Statement (.arb a) := by
  cases a <;> exact ⟨by decide, by decide, by decide⟩

theorem hlt : Statement .hlt := ⟨by decide, by decide, by decide⟩

end Sys2Proof.Laws.EncodedFields
end

