-- ==== Sys2Proof/Laws/Run.lean ====
section
/-! SUPPORT. How runs unfold: one step of `Host.Core.run`, and a call under fuel on an idle machine. -/

namespace Sys2Proof.Machine

/-- A run whose first step answers a next state goes on from there. -/
theorem core_run_next {s u : State} (n : Nat) (h : step s = .next u) :
    Host.Core.run core (n + 1) s = Host.Core.run core n u := by
  have h' : core.step s = .next u := h
  simp only [Host.Core.run, h']

/-- An idle step is the host's move. -/
theorem step_idle {s : State} (h : s.busy = false) : step s = .next (hostMove s) := by
  unfold step
  simp [h]

/-- A step of a call is an instruction. -/
theorem step_busy {s : State} (hb : s.busy = true) (hr : s.es = .running) : step s = stepInstr s := by
  unfold step
  simp [hb, hr]

/-- A call that is over takes no steps. -/
theorem runCall_idle {s : State} (n : Nat) (h : s.busy = false) : runCall n s = some s := by
  cases n <;> simp [runCall, h]

/-- A call in progress takes a step. -/
theorem runCall_busy {s u : State} (n : Nat) (hb : s.busy = true) (h : step s = .next u) :
    runCall (n + 1) s = runCall n u := by
  simp [runCall, hb, h]

end Sys2Proof.Machine
end

