-- ==== Sys2Proof/Tests/Slice0.lean ====
section
/-! SUPPORT. Tests of the model. Expected results come from the spec: spec/95_test_vectors.md (the id of a vector stands in
the docstring), spec/30_encoding.md R81 to R95 and spec/opcode_table.json. The `witness_` theorems show concrete states and
operands that meet the hypotheses of the statements in Certificates/Slice0/Obligations.lean. -/

namespace Sys2Proof.Tests

open Sys2Proof.Machine

/-- A machine with a call in progress: the program from address 0, and what the vector gives. -/
def machine (program : List Word) (ip rb : Word) (inputs : List Word) : State :=
  { State.reset with mem := Memory.load 0 program, ip := ip, rb := rb, inq := inputs, busy := true }

/-- The same with `NEG_ADDR_POLICY = refuse`. -/
def refusing (s : State) : State := { s with cfg := { s.cfg with negAddr := .refuse } }

/-- The same with `MEM_CELLS = n`. -/
def holding (n : Nat) (s : State) : State := { s with cfg := { s.cfg with memCells := some n } }

/-- The same machine between calls, in an execution state, with transactions to come. -/
def idle (e : ExecState) (todo : List Transaction) (s : State) : State :=
  { s with es := e, busy := false, inq := [], pending := todo }

/-- What one step answers, seen through `f`; `none` where it stops. -/
def look {α : Type} (f : State → α) (s : State) : Option α :=
  match step s with
  | .next t => some (f t)
  | .fault _ => none
  | .refused _ => none

/-- The cell at `x`, `ip`, and whether the call goes on, after one step. -/
def stored (x : Word) : State → Option Word × Word × Bool := fun t => (t.cell x, t.ip, t.busy)

/-- The fault latched, `ip`, and the execution state, after one step. -/
def trapped : State → Option FaultKind × Word × Word × ExecState := fun t => (t.fk, t.fi, t.ip, t.es)

/-! ### Decoding: words written out digit by digit from R81 and R84, one for each instruction -/

/-- mode3 2, mode2 1, mode1 0, opcode 01. -/
theorem test_decode_add : decode 21001 = .ok (.add .position .immediate .relative) := by decide
/-- mode3 0, mode2 2, mode1 1, opcode 02. -/
theorem test_decode_mul : decode 2102 = .ok (.mul .immediate .relative .position) := by decide
/-- mode1 2, opcode 03. -/
theorem test_decode_in : decode 203 = .ok (.inp .relative) := by decide
/-- mode1 1, opcode 04. -/
theorem test_decode_out : decode 104 = .ok (.out .immediate) := by decide
/-- mode2 1, mode1 2, opcode 05. -/
theorem test_decode_jnz : decode 1205 = .ok (.jnz .relative .immediate) := by decide
/-- mode2 2, mode1 0, opcode 06. -/
theorem test_decode_jz : decode 2006 = .ok (.jz .position .relative) := by decide
/-- mode3 1, mode2 0, mode1 2, opcode 07. -/
theorem test_decode_lt : decode 10207 = .ok (.lt .relative .position .immediate) := by decide
/-- mode3 2, mode2 1, mode1 0, opcode 08. -/
theorem test_decode_eq : decode 21008 = .ok (.eq .position .immediate .relative) := by decide
/-- mode1 2, opcode 09. -/
theorem test_decode_arb : decode 209 = .ok (.arb .relative) := by decide
/-- Opcode 99; R171: 22299 is HLT too. -/
theorem test_decode_hlt : decode 99 = .ok .hlt ∧ decode 22299 = .ok .hlt := by decide
/-- Section 2.9: illegal opcodes and negative words. -/
theorem test_decode_invalid :
    [-1, -99, 0, 100, 10, 98, 13, 12345].all (fun w => decode w = .error .invalidOpcode) = true := by decide
/-- Section 2.9: reserved digits in used positions, and in unused ones. -/
theorem test_decode_reserved :
    [301, 3001, 30001, 303].all (fun w => decode w = .error .reservedMode) = true ∧
    decode 3004 = .ok (.out .position) ∧ decode 30005 = .ok (.jnz .position .position) ∧
    decode 30099 = .ok .hlt ∧ decode 1000099 = .ok .hlt := by decide
/-- R93: the words of the spec's own assembly. -/
theorem test_encode :
    encode (.add .position .immediate .position) = 1001 ∧ encode (.lt .immediate .immediate .relative) = 21107 ∧
    encode (.out .relative) = 204 ∧ encode .hlt = 99 := by decide
/-- A table row's word, and one with operand words after it in the higher bits. -/
theorem test_table_word :
    decodeTableWord 64 1006 = some (.jz .position .immediate) ∧
    decodeTableWord 128 (104 + 2 ^ 64 * 77) = some (.out .immediate) ∧ decodeTableWord 64 0 = none := by decide

/-! ### WellFormed refuses ill-formed terms, check by check -/

theorem test_wf_negative_word : instrWordWf (-1) = false := by decide
theorem test_wf_illegal_opcode : instrWordWf 0 = false ∧ instrWordWf 45 = false := by decide
theorem test_wf_reserved_digit :
    instrWordWf 301 = false ∧ instrWordWf 3001 = false ∧ instrWordWf 30001 = false ∧ instrWordWf 30005 = true := by decide
theorem test_wf_program :
    programWf { Config.default with progMax := some 1 } [1, 2] = false ∧
    programWf { Config.default with memCells := some 1 } [1, 2] = false ∧
    programWf { Config.default with progMax := some 2, memCells := some 2 } [1, 2] = true := by decide
theorem test_wf_batch :
    batchWf { Config.default with inqDepth := some 1 } [1, 2] = false ∧
    batchWf { Config.default with inqDepth := some 2 } [1, 2] = true := by decide

/-! ### One step of each instruction -/

/-- A2: positive overflow wraps. -/
theorem test_add_wraps :
    look (stored 5) (machine [1101, 9223372036854775807, 1, 5, 99, 0] 0 0 []) =
      some (some (-9223372036854775808), 4, true) := by decide
/-- A9: the second operand, relative, is not present; the first was read. -/
theorem test_add_second_operand_absent :
    look trapped (machine [2201, -1, 3, 6, 99, 0, 0, 0, 0, 55] 0 10 []) = some (some .memoryFault, 13, 0, .faulted) := by
  decide
/-- M7: the low 64 bits of a product. -/
theorem test_mul_wraps :
    look (stored 5) (machine [1102, 3037000500, 3037000500, 5, 99, 7] 0 0 []) =
      some (some (-9223372036709301616), 4, true) := by decide
/-- M10: source and destination are the instruction word itself. -/
theorem test_mul_in_place : look (stored 0) (machine [2, 0, 0, 0, 99] 0 0 []) = some (some 4, 4, true) := by decide
/-- I2: the front value first, the cell created. -/
theorem test_in_takes_front :
    look (fun t => (stored 50 t, t.inq)) (machine [3, 50, 99] 0 0 [-7, 8]) = some ((some (-7), 2, true), [8]) := by decide
/-- I6, P6: the absent operand word comes before the empty queue. -/
theorem test_in_operand_before_underflow :
    look trapped (machine [3] 0 0 []) = some (some .memoryFault, 1, 0, .faulted) ∧
    look trapped (machine [3, 5] 0 0 []) = some (some .inputUnderflow, 0, 0, .faulted) := by decide
/-- O3: a relative operand with a negative offset; the call ends. -/
theorem test_out_relative :
    look (fun t => (t.lo, t.lov, t.ip, t.es, t.responses)) (machine [204, -1, 99, 0, 0, 123] 0 6 [1]) =
      some (123, true, 2, .suspendedOnOutput, [.returned (.ok (some 123) false)]) := by decide
/-- O4: no output is made on a fault. -/
theorem test_out_absent :
    look (fun t => (trapped t, t.lov)) (machine [4, 50, 99] 0 0 []) = some ((some .memoryFault, 50, 0, .faulted), false) := by
  decide
/-- J3: a negative Word is true. -/
theorem test_jnz_negative : look (stored 0) (machine [1105, -1, 7] 0 0 []) = some (some 1105, 7, true) := by decide
/-- J8: not taken, the target's cell is absent all the same. -/
theorem test_jnz_target_absent :
    look trapped (machine [5, 3, 50, 0] 0 0 []) = some (some .memoryFault, 50, 0, .faulted) := by decide
/-- Z3: both operands in position mode. -/
theorem test_jz_position : look (stored 0) (machine [6, 3, 4, 0, 20] 0 0 []) = some (some 6, 20, true) := by decide
/-- Z2: not taken. -/
theorem test_jz_not_taken : look (stored 0) (machine [1106, 5, 7] 0 0 []) = some (some 1106, 3, true) := by decide
/-- L4: no subtract and test of the sign. -/
theorem test_lt_extremes :
    look (stored 5) (machine [1107, 9223372036854775807, -9223372036854775808, 5, 99, 7] 0 0 []) =
      some (some 0, 4, true) := by decide
/-- L6: the comparison is signed. -/
theorem test_lt_signed : look (stored 5) (machine [1107, -1, 0, 5, 99, 7] 0 0 []) = some (some 1, 4, true) := by decide
/-- Q2: equality of all bits. -/
theorem test_eq_sign : look (stored 5) (machine [1108, 8, -8, 5, 99, 7] 0 0 []) = some (some 0, 4, true) := by decide
/-- Q5: the destination is the instruction word itself. -/
theorem test_eq_in_place : look (stored 0) (machine [1108, 0, 0, 0, 99] 0 0 []) = some (some 1, 4, true) := by decide
/-- R4: the operand is read with the old base. -/
theorem test_arb_old_base :
    look (fun t => (t.rb, t.ip)) (machine [209, 0, 0, 0, 0, 7] 0 5 []) = some (12, 2) := by decide
/-- R5: the base wraps. -/
theorem test_arb_wraps :
    look (fun t => (t.rb, t.ip)) (machine [109, 1] 0 9223372036854775807 []) = some (-9223372036854775808, 2) := by decide
/-- H5: `ip` stays on the HLT; the queue is emptied. -/
theorem test_hlt : look (fun t => (t.ip, t.es, t.busy, t.inq)) (machine [4, 0, 99] 2 0 [5]) = some (2, .halted, false, []) := by
  decide

/-! ### Faults, the policy, the host -/

/-- Section 2.9: `1,4` running into 13, and MAX, whose information is the word. -/
theorem test_decode_faults :
    look trapped (machine [13] 0 0 []) = some (some .invalidOpcode, 13, 0, .faulted) ∧
    look trapped (machine [9223372036854775807] 0 0 []) =
      some (some .reservedMode, 9223372036854775807, 0, .faulted) := by decide
/-- R53: the cell that exceeds MEM_CELLS; a present cell can still be written. -/
theorem test_capacity :
    look trapped (holding 4 (machine [1101, 2, 3, 9] 0 0 [])) = some (some .capacityFault, 9, 0, .faulted) ∧
    look (stored 0) (holding 4 (machine [1101, 2, 3, 0] 0 0 [])) = some (some 5, 4, true) := by decide
/-- A11 under both policies (R55). -/
theorem test_negative_destination :
    look (stored (-4)) (machine [1101, 2, 3, -4, 99] 0 0 []) = some (some 5, 4, true) ∧
    step (refusing (machine [1101, 2, 3, -4, 99] 0 0 [])) = .fault (.negativeAddress (-4)) :=
  ⟨by decide, rfl⟩
/-- R24, R56: the operand word after the last positive address is at the first negative one. -/
theorem test_operand_address_wraps :
    operandWord { State.reset with ip := 9223372036854775807, mem := [(9223372036854775808, 5)] } 1 = .ok 5 := by decide
/-- Section 1.3, both calls, from reset through the host's transactions. -/
theorem test_large_literal :
    (execute 1 [] (State.reset.construct [104, 1125899906842624, 99])).map (fun p => (p.1, p.2.ip)) =
      some (.ok (some 1125899906842624) false, 2) ∧
    (execute 1 [] { State.reset.construct [104, 1125899906842624, 99] with
      es := .suspendedOnOutput, ip := 2, lo := 1125899906842624, lov := true }).map (fun p => (p.1, p.2.ip)) =
      some (.ok (some 1125899906842624) true, 2) := by decide
/-- The word that `withFetchWord` places is what the first step runs. -/
theorem test_fetch_word :
    look (fun t => t.es) (State.reset.withFetchWord 64 99) = some .halted ∧
    look (stored 0) (State.reset.withFetchWord 64 1101) = some (some 0, 4, true) := by decide

/-! ### Witnesses: encoding -/

/-- UnusedDigitsAreIgnored. -/
theorem witness_unused_digits :
    (0 : Int) ≤ (10003 : Word).toInt ∧ (0 : Int) ≤ (93 * 100000 + 90003 : Word).toInt ∧
    (93 * 100000 + 90003 : Word).toNat % 100 = (10003 : Word).toNat % 100 ∧
    ∀ k, opcodeHasOperand ((10003 : Word).toNat % 100) k = true →
      modeDigit (93 * 100000 + 90003 : Word).toNat k = modeDigit (10003 : Word).toNat k := by
  refine ⟨by decide, by decide, by decide, fun k h => ?_⟩
  match k, h with
  | 0, h => exact absurd h (by decide)
  | 1, _ => decide
  | 2, h => exact absurd h (by decide)
  | 3, h => exact absurd h (by decide)
  | _ + 4, h => cases h

/-! ### Witnesses: memory and operands -/

/-- ReadReturnsCellOrFaults: each clause, at the ends of the address range. -/
theorem witness_read :
    (machine [7] 0 0 []).Holds 0 7 ∧ (machine [7] 0 0 []).Absent (-9223372036854775808) ∧
    (refusing (machine [7] 0 0 [])).Holds 0 7 ∧ (refusing (machine [7] 0 0 [])).Absent 9223372036854775807 ∧
    (refusing (machine [7] 0 0 [])).Forbidden (-1) := by
  refine ⟨⟨.inl rfl, rfl⟩, ⟨.inl rfl, rfl⟩, ⟨.inr (by decide), rfl⟩, ⟨.inr (by decide), rfl⟩, rfl, by decide⟩

/-- WriteStoresOrFaults: a present cell in a full memory, a new cell that just fits, one that does not, a forbidden one. -/
theorem witness_write :
    (holding 1 (machine [7] 0 0 [])).Writable 0 ∧ (holding 2 (machine [7] 0 0 [])).Writable 1 ∧
    (holding 1 (machine [7] 0 0 [])).OverCapacity 1 ∧ (refusing (machine [7] 0 0 [])).Forbidden (-1) := by
  refine ⟨⟨.inl rfl, .inl (by decide)⟩, ⟨.inl rfl, .inr ?_⟩, ⟨.inl rfl, rfl, 1, rfl, by decide⟩, rfl, by decide⟩
  intro n h; cases h; decide

/-- ReadReturnsLatestWrite: a write, then writes to two other addresses. -/
theorem witness_latest_write :
    ∃ t u, memWrite (machine [] 0 0 []) 5 1 = .ok t ∧
      [((6 : Word), (2 : Word)), (4, 3)].foldlM (fun u w => memWrite u w.1 w.2) t = .ok u ∧
      ∀ w ∈ [((6 : Word), (2 : Word)), (4, 3)], w.1 ≠ 5 := by
  refine ⟨_, _, rfl, rfl, fun w h => ?_⟩
  rcases List.mem_pair.1 h with rfl | rfl <;> decide

/-- StoreIsSeenByNextFetch: a word of each of the three kinds is stored. -/
theorem witness_store_seen :
    (∃ t, memWrite (machine [] 0 0 []) 3 99 = .ok t) ∧ (∃ t, memWrite (machine [] 0 0 []) 3 0 = .ok t) ∧
    ∃ t, memWrite (machine [] 0 0 []) 3 301 = .ok t := ⟨⟨_, rfl⟩, ⟨_, rfl⟩, _, rfl⟩

/-- PresentCellStaysPresent: in a call, and idle with an `Execute` to come. -/
theorem witness_present :
    (∃ t, step (machine [1101, 2, 3, 0] 0 0 []) = .next t ∧ (machine [1101, 2, 3, 0] 0 0 []).cell 0 ≠ none) ∧
    ∃ t, step (idle .running [.execute []] (machine [99] 0 0 [])) = .next t ∧
      (idle .running [.execute []] (machine [99] 0 0 [])).cell 0 ≠ none ∧
      ∀ p rest, (idle .running [.execute []] (machine [99] 0 0 [])).pending ≠ .construct p :: rest :=
  ⟨⟨_, rfl, by decide⟩, _, rfl, by decide, fun _ _ h => by cases h⟩

/-- The operands of the instruction at 0 of these cells: words 4, -1 and 2, with `rb = 5`. -/
def operands : State := machine [0, 4, -1, 2, 44] 0 5 []

/-- ReadOperandByMode, DestinationAddressByMode: a value and an address in each mode. -/
theorem witness_operand_modes :
    ReadsAs operands 1 .position 44 ∧ ReadsAs operands 2 .immediate (-1) ∧ ReadsAs operands 2 .relative 44 ∧
    DestIs operands 1 .position 4 ∧ DestIs operands 2 .immediate (-1) ∧ DestIs operands 3 .relative 7 :=
  ⟨⟨4, ⟨.inl rfl, rfl⟩, .inl rfl, rfl⟩, ⟨-1, ⟨.inl rfl, rfl⟩, rfl⟩, ⟨-1, ⟨.inl rfl, rfl⟩, .inl rfl, rfl⟩,
   ⟨4, ⟨.inl rfl, rfl⟩, rfl⟩, ⟨-1, ⟨.inl rfl, rfl⟩, rfl⟩, ⟨2, ⟨.inl rfl, rfl⟩, rfl⟩⟩

/-- ReadOperandByMode, DestinationAddressByMode: an absent operand word, then an absent cell in the two modes that have one. -/
theorem witness_operand_absent :
    ReadStopsAt State.Absent (machine [0] 0 0 []) 1 .immediate 1 ∧
    ReadStopsAt State.Absent (machine [0, -1] 0 0 []) 1 .position (-1) ∧
    ReadStopsAt State.Absent (machine [0, -1] 0 3 []) 1 .relative 2 ∧
    DestStopsAt State.Absent (machine [0] 0 0 []) 1 1 :=
  ⟨.inl ⟨rfl, .inl rfl, rfl⟩, .inr ⟨-1, ⟨.inl rfl, rfl⟩, rfl, .inl rfl, rfl⟩,
   .inr ⟨-1, ⟨.inl rfl, rfl⟩, rfl, .inl rfl, rfl⟩, rfl, .inl rfl, rfl⟩

/-- The same under the policy `refuse`: the operand word of `ip = -3` is at -2; cells -1 and `rb - 1` with `rb = 0`. -/
theorem witness_operand_forbidden :
    ReadStopsAt State.Forbidden (refusing (machine [0] (-3) 0 [])) 1 .immediate (-2) ∧
    ReadStopsAt State.Forbidden (refusing (machine [0, -1] 0 0 [])) 1 .position (-1) ∧
    ReadStopsAt State.Forbidden (refusing (machine [0, -1] 0 0 [])) 1 .relative (-1) ∧
    DestStopsAt State.Forbidden (refusing (machine [0] (-3) 0 [])) 1 (-2) :=
  ⟨.inl ⟨rfl, rfl, by decide⟩, .inr ⟨-1, ⟨.inr (by decide), rfl⟩, rfl, rfl, by decide⟩,
   .inr ⟨-1, ⟨.inr (by decide), rfl⟩, rfl, rfl, by decide⟩, rfl, rfl, by decide⟩

/-! ### Witnesses: the rules of the instructions, completion first -/

/-- AddRule, MulRule, LessThanRule, EqualsRule, completion: position, relative and immediate operands; a new destination that
just fits, and a present one in a full memory. -/
theorem witness_binary_completes :
    (ReadsAs operands 1 .position 44 ∧ ReadsAs operands 2 .relative 44 ∧ DestIs operands 3 .relative 7 ∧
      operands.Writable 7) ∧
    ReadsAs (holding 5 operands) 1 .immediate 4 ∧ ReadsAs (holding 5 operands) 2 .immediate (-1) ∧
      DestIs (holding 5 operands) 3 .immediate 2 ∧ (holding 5 operands).Writable 2 :=
  ⟨⟨witness_operand_modes.1, witness_operand_modes.2.2.1, witness_operand_modes.2.2.2.2.2, .inl rfl,
    .inr fun _ h => by cases h⟩,
   ⟨4, ⟨.inl rfl, rfl⟩, rfl⟩, ⟨-1, ⟨.inl rfl, rfl⟩, rfl⟩, ⟨2, ⟨.inl rfl, rfl⟩, rfl⟩, .inl rfl, .inl (by decide)⟩

/-- AddRule, MulRule, LessThanRule, EqualsRule: each fault, with the operands before it resolved. -/
theorem witness_binary_faults :
    ReadStopsAt State.Absent (machine [0] 0 0 []) 1 .immediate 1 ∧
    (ReadsAs (machine [0, 4] 0 0 []) 1 .immediate 4 ∧ ReadStopsAt State.Absent (machine [0, 4] 0 0 []) 2 .immediate 2) ∧
    (ReadsAs (machine [0, 4, 5] 0 0 []) 1 .immediate 4 ∧ ReadsAs (machine [0, 4, 5] 0 0 []) 2 .immediate 5 ∧
      DestStopsAt State.Absent (machine [0, 4, 5] 0 0 []) 3 3) ∧
    ReadsAs (holding 4 (machine [0, 4, 5, 6] 0 0 [])) 1 .immediate 4 ∧
      ReadsAs (holding 4 (machine [0, 4, 5, 6] 0 0 [])) 2 .immediate 5 ∧
      DestIs (holding 4 (machine [0, 4, 5, 6] 0 0 [])) 3 .position 6 ∧
      (holding 4 (machine [0, 4, 5, 6] 0 0 [])).OverCapacity 6 :=
  ⟨witness_operand_absent.1, ⟨⟨4, ⟨.inl rfl, rfl⟩, rfl⟩, .inl ⟨rfl, .inl rfl, rfl⟩⟩,
   ⟨⟨4, ⟨.inl rfl, rfl⟩, rfl⟩, ⟨5, ⟨.inl rfl, rfl⟩, rfl⟩, rfl, .inl rfl, rfl⟩,
   ⟨4, ⟨.inl rfl, rfl⟩, rfl⟩, ⟨5, ⟨.inl rfl, rfl⟩, rfl⟩, ⟨6, ⟨.inl rfl, rfl⟩, rfl⟩, .inl rfl, rfl, 4, rfl, by decide⟩

/-- A machine under `refuse` whose `ip` is at the last positive addresses, so that operand `k` is at a negative one. -/
def atTop (ip : Word) : State :=
  refusing { State.reset with
    ip := ip, busy := true,
    mem := [(9223372036854775805, 0), (9223372036854775806, 4), (9223372036854775807, 5)] }

/-- AddRule, MulRule, LessThanRule, EqualsRule: each stop under `refuse`. -/
theorem witness_binary_forbidden :
    ReadStopsAt State.Forbidden (refusing (machine [0, -1] 0 0 [])) 1 .position (-1) ∧
    (ReadsAs (refusing (machine [0, 4, -1] 0 0 [])) 1 .immediate 4 ∧
      ReadStopsAt State.Forbidden (refusing (machine [0, 4, -1] 0 0 [])) 2 .position (-1)) ∧
    (ReadsAs (atTop 9223372036854775805) 1 .immediate 4 ∧ ReadsAs (atTop 9223372036854775805) 2 .immediate 5 ∧
      DestStopsAt State.Forbidden (atTop 9223372036854775805) 3 (-9223372036854775808)) ∧
    ReadsAs (refusing (machine [0, 4, 5, -1] 0 0 [])) 1 .immediate 4 ∧
      ReadsAs (refusing (machine [0, 4, 5, -1] 0 0 [])) 2 .immediate 5 ∧
      DestIs (refusing (machine [0, 4, 5, -1] 0 0 [])) 3 .position (-1) ∧
      (refusing (machine [0, 4, 5, -1] 0 0 [])).Forbidden (-1) :=
  ⟨witness_operand_forbidden.2.1,
   ⟨⟨4, ⟨.inr (by decide), rfl⟩, rfl⟩, .inr ⟨-1, ⟨.inr (by decide), rfl⟩, rfl, rfl, by decide⟩⟩,
   ⟨⟨4, ⟨.inr (by decide), by decide⟩, rfl⟩, ⟨5, ⟨.inr (by decide), by decide⟩, rfl⟩, by decide, rfl, by decide⟩,
   ⟨4, ⟨.inr (by decide), rfl⟩, rfl⟩, ⟨5, ⟨.inr (by decide), rfl⟩, rfl⟩, ⟨-1, ⟨.inr (by decide), rfl⟩, rfl⟩, rfl, by decide⟩

/-- JumpIfTrueRule, JumpIfFalseRule: taken and not taken for both (a = 1 and a = 0), each fault and each stop. -/
theorem witness_jumps :
    (ReadsAs (machine [0, 1, 7] 0 0 []) 1 .immediate 1 ∧ ReadsAs (machine [0, 1, 7] 0 0 []) 2 .immediate 7 ∧
      (1 : Word).toInt ≠ 0) ∧
    (ReadsAs (machine [0, 0, 7] 0 0 []) 1 .immediate 0 ∧ ReadsAs (machine [0, 0, 7] 0 0 []) 2 .immediate 7 ∧
      (0 : Word).toInt = 0) ∧
    ReadStopsAt State.Absent (machine [0] 0 0 []) 1 .immediate 1 ∧
    (ReadsAs (machine [0, 4] 0 0 []) 1 .immediate 4 ∧ ReadStopsAt State.Absent (machine [0, 4] 0 0 []) 2 .immediate 2) ∧
    ReadStopsAt State.Forbidden (refusing (machine [0, -1] 0 0 [])) 1 .position (-1) ∧
    ReadsAs (refusing (machine [0, 4, -1] 0 0 [])) 1 .immediate 4 ∧
      ReadStopsAt State.Forbidden (refusing (machine [0, 4, -1] 0 0 [])) 2 .position (-1) :=
  ⟨⟨⟨1, ⟨.inl rfl, rfl⟩, rfl⟩, ⟨7, ⟨.inl rfl, rfl⟩, rfl⟩, by decide⟩,
   ⟨⟨0, ⟨.inl rfl, rfl⟩, rfl⟩, ⟨7, ⟨.inl rfl, rfl⟩, rfl⟩, by decide⟩,
   witness_binary_faults.1, witness_binary_faults.2.1, witness_binary_forbidden.1, witness_binary_forbidden.2.1⟩

/-- InputRule: completion (the last value of the queue, a destination that just fits), and each fault and stop. -/
theorem witness_input :
    (DestIs (holding 3 (machine [3, 50] 0 0 [-7])) 1 .position 50 ∧
      (holding 3 (machine [3, 50] 0 0 [-7])).inq = -7 :: [] ∧ (holding 3 (machine [3, 50] 0 0 [-7])).Writable 50) ∧
    DestStopsAt State.Absent (machine [3] 0 0 []) 1 1 ∧
    (DestIs (machine [3, 50] 0 0 []) 1 .immediate 50 ∧ (machine [3, 50] 0 0 []).inq = []) ∧
    (DestIs (holding 2 (machine [3, 50] 0 0 [-7])) 1 .position 50 ∧
      (holding 2 (machine [3, 50] 0 0 [-7])).inq = -7 :: [] ∧ (holding 2 (machine [3, 50] 0 0 [-7])).OverCapacity 50) ∧
    DestStopsAt State.Forbidden (refusing (machine [3] (-3) 0 [])) 1 (-2) ∧
    DestIs (refusing (machine [3, -1] 0 0 [5])) 1 .relative (-1) ∧ (refusing (machine [3, -1] 0 0 [5])).inq = 5 :: [] ∧
      (refusing (machine [3, -1] 0 0 [5])).Forbidden (-1) :=
  ⟨⟨⟨50, ⟨.inl rfl, rfl⟩, rfl⟩, rfl, .inl rfl, .inr fun n h => by cases h; decide⟩, ⟨rfl, .inl rfl, rfl⟩,
   ⟨⟨50, ⟨.inl rfl, rfl⟩, rfl⟩, rfl⟩, ⟨⟨50, ⟨.inl rfl, rfl⟩, rfl⟩, rfl, .inl rfl, rfl, 2, rfl, by decide⟩,
   ⟨rfl, rfl, by decide⟩, ⟨-1, ⟨.inr (by decide), rfl⟩, rfl⟩, rfl, rfl, by decide⟩

/-- OutputRule, AdjustBaseRule: completion in each mode, the fault, the stop. (HaltRule has no hypothesis.) -/
theorem witness_unary :
    ReadsAs operands 1 .position 44 ∧ ReadsAs operands 1 .immediate 4 ∧
    ReadsAs (machine [0, -1] 0 1 []) 1 .relative 0 ∧
    ReadStopsAt State.Absent (machine [0, -1] 0 0 []) 1 .position (-1) ∧
    ReadStopsAt State.Forbidden (refusing (machine [0, -1] 0 0 [])) 1 .position (-1) :=
  ⟨witness_operand_modes.1, ⟨4, ⟨.inl rfl, rfl⟩, rfl⟩, ⟨-1, ⟨.inl rfl, rfl⟩, .inl rfl, rfl⟩, witness_operand_absent.2.1,
   witness_operand_forbidden.2.1⟩

/-- AdditionLaw: operands in each of its three ranges, at their ends; its clauses on addresses and on ARB. -/
theorem witness_addition :
    ((-9223372036854775808 : Word).toInt + (0 : Word).toInt = -2 ^ 63 ∧
     (9223372036854775807 : Word).toInt + (0 : Word).toInt < 2 ^ 63 ∧
     2 ^ 63 ≤ (9223372036854775807 : Word).toInt + (1 : Word).toInt ∧
     (-9223372036854775808 : Word).toInt + (-1 : Word).toInt < -2 ^ 63) ∧
    operandWord operands 2 = .ok (-1) ∧ readVal operands 2 .relative = .ok 44 ∧
    readVal operands 1 .immediate = .ok 4 := by decide

/-- MultiplicationLaw: a product at the lower end of the Words. -/
theorem witness_multiplication :
    (-9223372036854775808 : Word).toInt * (1 : Word).toInt = -2 ^ 63 ∧
    (9223372036854775807 : Word).toInt * (1 : Word).toInt < 2 ^ 63 := by decide

/-! ### Witnesses: frames and whole steps -/

/-- FrameOfStoringInstructions: each of the four, and a fault. -/
theorem witness_frame_storing :
    (StoresTo (.add .immediate .immediate .relative) .relative ∧
      ∃ t, exec (.add .immediate .immediate .relative) operands = .next t) ∧
    (StoresTo (.mul .position .immediate .position) .position ∧
      ∃ t, exec (.mul .position .immediate .position) operands = .next t) ∧
    (StoresTo (.lt .position .relative .immediate) .immediate ∧
      ∃ t, exec (.lt .position .relative .immediate) operands = .next t) ∧
    (StoresTo (.eq .position .relative .immediate) .immediate ∧
      ∃ t, exec (.eq .position .relative .immediate) operands = .next t) ∧
    (∃ d, writeAddr operands 3 .relative = .ok d) ∧
    ∃ t, exec (.add .immediate .position .immediate) operands = .next t ∧ t.es = .faulted :=
  ⟨⟨⟨_, _, .inl rfl⟩, _, rfl⟩, ⟨⟨_, _, .inr (.inl rfl)⟩, _, rfl⟩, ⟨⟨_, _, .inr (.inr (.inl rfl))⟩, _, rfl⟩,
   ⟨⟨_, _, .inr (.inr (.inr rfl))⟩, _, rfl⟩, ⟨_, rfl⟩, _, rfl, rfl⟩

/-- FrameOfInput: a completion and a fault. -/
theorem witness_frame_input :
    (∃ t, exec (.inp .position) (machine [3, 50] 0 0 [9]) = .next t ∧ t.inq = []) ∧
    (∃ d, writeAddr (machine [3, 50] 0 0 [9]) 1 .position = .ok d) ∧
    ∃ t, exec (.inp .position) (machine [3, 50] 0 0 []) = .next t ∧ t.es = .faulted :=
  ⟨⟨_, rfl, rfl⟩, ⟨_, rfl⟩, _, rfl, rfl⟩

/-- FrameOfNonStoringInstructions, PointerAfterInstruction: each instruction, and a fault. -/
theorem witness_frame_non_storing :
    (∃ t, exec (.out .immediate) operands = .next t ∧ t.es = .suspendedOnOutput) ∧
    (∃ t, exec (.jnz .immediate .immediate) operands = .next t ∧ t.ip = -1) ∧
    (∃ t, exec (.jz .immediate .immediate) operands = .next t ∧ t.ip = 3) ∧
    (∃ t, exec (.arb .immediate) operands = .next t ∧ t.rb = 9) ∧
    (∃ t, exec .hlt operands = .next t ∧ t.es = .halted) ∧
    (∃ t, exec (.out .position) (machine [0] 0 0 []) = .next t ∧ t.es = .faulted) ∧ operands.es = .running :=
  ⟨⟨_, rfl, rfl⟩, ⟨_, rfl, rfl⟩, ⟨_, rfl, rfl⟩, ⟨_, rfl, rfl⟩, ⟨_, rfl, rfl⟩, ⟨_, rfl, rfl⟩, rfl⟩

/-- WritersOfEachElement: a step that changes `rb`, one that changes `lo`, one that changes memory, one that changes the queue, a
HLT, and a fault, which change `es` and end the call. -/
theorem witness_writers :
    (∃ t, step (machine [109, 1] 0 0 []) = .next t ∧ t.rb ≠ (machine [109, 1] 0 0 []).rb) ∧
    (∃ t, step (machine [104, 1] 0 0 []) = .next t ∧ t.lo ≠ (machine [104, 1] 0 0 []).lo) ∧
    (∃ t, step (machine [3, 9] 0 0 [1]) = .next t ∧ t.mem ≠ (machine [3, 9] 0 0 [1]).mem) ∧
    (∃ t, step (machine [3, 9] 0 0 [1]) = .next t ∧ t.inq ≠ (machine [3, 9] 0 0 [1]).inq) ∧
    (∃ t, step (machine [99] 0 0 []) = .next t ∧ fetch (machine [99] 0 0 []) = .ok .hlt ∧
      t.es ≠ (machine [99] 0 0 []).es ∧ t.busy = false) ∧
    ∃ t, step (machine [] 0 0 []) = .next t ∧ t.fk ≠ (machine [] 0 0 []).fk ∧ t.es ≠ (machine [] 0 0 []).es :=
  ⟨⟨_, rfl, by decide⟩, ⟨_, rfl, by decide⟩, ⟨_, rfl, by decide⟩, ⟨_, rfl, by decide⟩, ⟨_, rfl, rfl, by decide, rfl⟩,
   _, rfl, by decide, by decide⟩

/-- RaisersOfEachFault, FaultsArePrecise: a step of a call that takes each of the five faults. -/
theorem witness_faults :
    step (machine [0] 0 0 []) = .next ((machine [0] 0 0 []).afterFault .invalidOpcode 0) ∧
    step (machine [303] 0 0 []) = .next ((machine [303] 0 0 []).afterFault .reservedMode 303) ∧
    step (machine [] 0 0 []) = .next ((machine [] 0 0 []).afterFault .memoryFault 0) ∧
    step (machine [3, 5] 0 0 []) = .next ((machine [3, 5] 0 0 []).afterFault .inputUnderflow 0) ∧
    step (holding 4 (machine [1101, 2, 3, 9] 0 0 [])) =
      .next ((holding 4 (machine [1101, 2, 3, 9] 0 0 [])).afterFault .capacityFault 9) :=
  ⟨rfl, rfl, rfl, rfl, rfl⟩

/-- StepRunsDecodedInstruction. -/
theorem witness_step_runs :
    (machine [104, 1] 0 0 []).busy = true ∧ (machine [104, 1] 0 0 []).es = .running ∧
    (machine [104, 1] 0 0 []).Holds 0 104 ∧ decode 104 = .ok (.out .immediate) :=
  ⟨rfl, rfl, ⟨.inl rfl, rfl⟩, rfl⟩

/-- FetchAndDecodeFaults: each clause. -/
theorem witness_fetch_faults :
    (machine [] 0 0 []).Absent 0 ∧
    ((machine [-1] 0 0 []).Holds 0 (-1) ∧ decode (-1) = .error .invalidOpcode) ∧
    ((machine [301] 0 0 []).Holds 0 301 ∧ decode 301 = .error .reservedMode) ∧
    (refusing (machine [] (-1) 0 [])).Forbidden (-1) :=
  ⟨⟨.inl rfl, rfl⟩, ⟨⟨.inl rfl, rfl⟩, by decide⟩, ⟨⟨.inl rfl, rfl⟩, by decide⟩, rfl, by decide⟩

/-- PlacedInstructionRunsNext. -/
theorem witness_placed :
    decodeTableWord 64 99 = some .hlt ∧ State.reset.Accessible State.reset.ip := ⟨by decide, .inl rfl⟩

/-! ### Witnesses: the host and whole runs -/

/-- IdleMachineWaitsForHost, EmptyProgramFaultsAtFirstFetch, PeekIsReadOnly, ExecuteStartsCall: an idle machine; a batch at
INQ_DEPTH exactly; suspended as well as never called. -/
theorem witness_idle :
    State.reset.busy = false ∧ State.reset.pending = [] ∧ State.reset.es = .running ∧
    batchWf State.reset.cfg [1] = true ∧
    (idle .suspendedOnOutput [.peek .ip] (machine [] 0 0 [])).pending = .peek .ip :: [] ∧
    (idle .suspendedOnOutput [] (machine [] 0 0 [])).es = .suspendedOnOutput ∧
    (∀ n, (some 1 : Option Nat) = some n → [(5 : Word)].length ≤ n) ∧
    (∀ n, (idle .suspendedOnOutput [] (machine [] 0 0 [])).cfg.inqDepth = some n → [(5 : Word)].length ≤ n) :=
  ⟨rfl, rfl, rfl, rfl, rfl, rfl, fun n h => by cases h; decide, fun n h => by cases h⟩

/-- ConstructSetsEveryElement: a program exactly at both bounds, and one over each. -/
theorem witness_construct :
    (∀ n, (some 2 : Option Nat) = some n → [(1 : Word), 2].length ≤ n) ∧ [(1 : Word), 2].length ≤ 2 ^ 63 ∧
    (holding 1 State.reset).cfg.memCells = some 1 ∧ 1 < [(1 : Word), 2].length ∧
    ({ Config.default with progMax := some 1 } : Config).progMax = some 1 :=
  ⟨fun n h => by cases h; decide, by decide, rfl, by decide, rfl⟩

/-- RefusedTransactionsHaveNoEffect: a call in progress, and a batch one longer than INQ_DEPTH. -/
theorem witness_refused :
    (machine [] 0 0 []).busy = true ∧ ({ Config.default with inqDepth := some 0 } : Config).inqDepth = some 0 ∧
    0 < [(5 : Word)].length := by decide

/-- The invariant of a machine with no bound, the policy `key` and a program in canonical form. -/
theorem inv_of {s : State} (hm : s.mem.wf) (hc : s.cfg = Config.default) (hq : s.busy = false → s.inq = [])
    (hr : s.busy = true → s.es = .running) (hf : s.es = .faulted ↔ s.fk ≠ none) (hi : s.fk = none → s.fi = 0)
    (ho : s.es = .suspendedOnOutput → s.lov = true)
    (hh : s.es = .halted → ∃ w, s.cell s.ip = some w ∧ decode w = .ok .hlt) : s.Inv where
  memWf := hm
  capacity := fun n h => by rw [hc] at h; cases h
  noNegative := fun h => by rw [hc] at h; cases h
  queueBound := fun n h => by rw [hc] at h; cases h
  queueIdle := hq
  callRunning := hr
  faultLatched := hf
  infoClear := hi
  suspendedOutput := ho
  haltedAtHlt := hh

/-- An idle halted machine on its HLT, with an `Execute` and a `Peek` to come. -/
def haltedMachine : State := idle .halted [.execute [1], .peek .lo] (machine [99] 0 0 [])

/-- An idle faulted machine, with an `Execute` to come. -/
def faultedMachine : State := { idle .faulted [.execute []] (machine [] 0 0 []) with fk := some .memoryFault }

/-- StepKeepsInvariant, ExecutionStateTransitions, StepStopsOnlyAtRefusedAddress, ResultMatchesFinalState: machines that meet
the invariant: in a call, halted, faulted, and suspended with a `Construct` to come. -/
theorem witness_invariant :
    (machine [104, 7, 99] 0 0 [4]).Inv ∧ haltedMachine.Inv ∧ faultedMachine.Inv ∧
    ({ idle .suspendedOnOutput [.construct [99]] (machine [104, 7, 99] 2 0 []) with lov := true } : State).Inv :=
  ⟨inv_of (by decide) rfl (fun h => by cases h) (fun _ => rfl) (by decide) (fun _ => rfl) (fun h => by cases h)
     (fun h => by cases h),
   inv_of (by decide) rfl (fun _ => rfl) (fun h => by cases h) (by decide) (fun _ => rfl) (fun h => by cases h)
     (fun _ => ⟨99, rfl, by decide⟩),
   inv_of (by decide) rfl (fun _ => rfl) (fun h => by cases h) (by decide) (fun h => by cases h) (fun h => by cases h)
     (fun h => by cases h),
   inv_of (by decide) rfl (fun _ => rfl) (fun h => by cases h) (by decide) (fun _ => rfl) (fun _ => rfl)
     (fun h => by cases h)⟩

/-- StepKeepsInvariant, ExecutionStateTransitions: from them a step answers, with each kind of outcome. -/
theorem witness_transitions :
    look (fun t => (t.busy, t.es)) (machine [109, 7, 99] 0 0 [4]) = some (true, .running) ∧
    look (fun t => (t.busy, t.es)) (machine [104, 7, 99] 0 0 [4]) = some (false, .suspendedOnOutput) ∧
    look (fun t => (t.busy, t.es)) (machine [99] 0 0 []) = some (false, .halted) ∧
    look (fun t => (t.busy, t.es)) (machine [] 0 0 []) = some (false, .faulted) ∧
    look (fun t => (t.busy, t.es)) haltedMachine = some (false, .halted) ∧
    look (fun t => (t.busy, t.es)) faultedMachine = some (false, .faulted) ∧
    look (fun t => (t.busy, t.es)) (idle .faulted [.construct [99]] (machine [] 0 0 [])) = some (false, .running) ∧
    look (fun t => (t.busy, t.es)) (idle .running [.execute [1]] (machine [99] 0 0 [])) = some (true, .running) := by
  decide

/-- TerminalStatesAreStable: a halted and a faulted machine, no `Construct` to come. -/
theorem witness_terminal :
    (haltedMachine.busy = false ∧ haltedMachine.es = .halted ∧
      ∀ tr ∈ haltedMachine.pending, tr.isConstruct = false) ∧
    faultedMachine.busy = false ∧ faultedMachine.es = .faulted ∧ faultedMachine.fk = some .memoryFault ∧
      ∀ tr ∈ faultedMachine.pending, tr.isConstruct = false := by decide

/-- ResultMatchesFinalState, ExecuteIsRepeatedStep: calls that end at an OUT, at a HLT and in a fault. -/
theorem witness_execute :
    (∃ p, execute 1 [] (idle .running [] (machine [104, 7, 99] 0 0 [])) = some p) ∧
    (∃ p, execute 1 [] (idle .running [] (machine [99] 0 0 [])) = some p) ∧
    (∃ p, execute 1 [] (idle .running [] (machine [] 0 0 [])) = some p) ∧
    (idle .running [] (machine [104, 7, 99] 0 0 [])).Inv ∧
    (idle .running [] (machine [104, 7, 99] 0 0 [])).busy = false :=
  ⟨⟨_, rfl⟩, ⟨_, rfl⟩, ⟨_, rfl⟩,
   inv_of (by decide) rfl (fun _ => rfl) (fun h => by cases h) (by decide) (fun _ => rfl) (fun h => by cases h)
     (fun h => by cases h), rfl⟩

/-- ExtraInputsAreNeverSeen: a call that takes its one input and halts. -/
theorem witness_extra_inputs :
    (machine [3, 0, 99] 0 0 [5]).busy = true ∧
    (runCall 2 (machine [3, 0, 99] 0 0 [5])).isSome = true ∧
    (runCall 2 (machine [3, 0, 99] 0 0 [5])).map (fun t => t.fk) ≠ some (some .inputUnderflow) := by decide

end Sys2Proof.Tests
end

section
/-! SUPPORT. Facts about the state and its memory that the proofs about instructions and transactions share. -/

namespace Sys2Proof.Machine

/-! ### Bounds, the address policy and memory reads -/

theorem withinBound_iff {n : Nat} {bound : Option Nat} :
    withinBound n bound = true ↔ ∀ b, bound = some b → n ≤ b := by
  cases bound <;> simp [withinBound]

theorem programWf_iff {cfg : Config} {p : List Word} :
    programWf cfg p = true ↔ (∀ n, cfg.progMax = some n → p.length ≤ n) ∧
      (∀ n, cfg.memCells = some n → p.length ≤ n) ∧ p.length ≤ 2 ^ 63 := by
  simp only [programWf, Bool.and_eq_true, withinBound_iff, decide_eq_true_eq, and_assoc]

theorem batchWf_iff {cfg : Config} {q : List Word} :
    batchWf cfg q = true ↔ ∀ n, cfg.inqDepth = some n → q.length ≤ n := withinBound_iff

/-- A machine that is not full has room for one more cell. -/
theorem State.full_eq_false_iff {s : State} :
    s.full = false ↔ ∀ n, s.cfg.memCells = some n → s.mem.length + 1 ≤ n := by
  rw [State.full, Bool.not_eq_false', withinBound_iff]

theorem refuses_eq_false_iff {s : State} {x : Word} : Config.refuses s.cfg x = false ↔ s.Accessible x := by
  unfold Config.refuses State.Accessible
  cases s.cfg.negAddr <;> simp

theorem memRead_ok_iff {s : State} {x v : Word} : memRead s x = .ok v ↔ s.Holds x v := by
  constructor
  · intro h
    obtain ⟨hr, hc⟩ := memRead_ok h
    exact ⟨refuses_eq_false_iff.mp hr, hc⟩
  · rintro ⟨ha, hc⟩
    simp [memRead, refuses_eq_false_iff.mpr ha, hc]

/-- R111: the resolver reads an operand as the value its mode gives. -/
theorem readsAs_of_readVal_ok {s : State} {k : Nat} {m : AddrMode} {v : Word} (h : readVal s k m = .ok v) :
    ReadsAs s k m v := by
  obtain ⟨w, hw, h⟩ := except_bind_ok h
  refine ⟨w, memRead_ok_iff.mp hw, ?_⟩
  cases m with
  | position => exact memRead_ok_iff.mp h
  | immediate => cases h; rfl
  | relative => exact memRead_ok_iff.mp h

/-! ### Stores -/

/-- R51: a store leaves every present key present. -/
theorem Memory.lookup_store_ne_none {m : Memory} {b : Nat} (a : Nat) (v : Word) (h : m.lookup b ≠ none) :
    (m.store a v).lookup b ≠ none := by
  by_cases hb : b = a
  · simp [hb, Memory.lookup_store_self]
  · rwa [Memory.lookup_store_of_ne m v hb]

/-- A jump, taken or not, is an update of `ip` alone. -/
@[simp] theorem State.ite_setIp_advance (s : State) (c : Bool) (x : Word) (n : Nat) :
    (if c then s.setIp x else s.advance n) = s.setIp (if c then x else addrPlus s.ip n) := by
  cases c <;> rfl

end Sys2Proof.Machine
end

section
/-! SUPPORT. What instructions, transactions and steps of a call may change, read off their inversions, once per
element of the state. -/

namespace Sys2Proof.Machine

variable {i : Instr} {s t : State}

theorem StoresTo.binaryOf {m3 : AddrMode} (h : StoresTo i m3) : ∃ f m1 m2, BinaryOf i f m1 m2 m3 := by
  obtain ⟨m1, m2, rfl | rfl | rfl | rfl⟩ := h
  · exact ⟨_, _, _, .add m1 m2 m3⟩
  · exact ⟨_, _, _, .mul m1 m2 m3⟩
  · exact ⟨_, _, _, .lt m1 m2 m3⟩
  · exact ⟨_, _, _, .eq m1 m2 m3⟩

theorem BinaryOf.storesTo {f : Word → Word → Word} {m1 m2 m3 : AddrMode} (h : BinaryOf i f m1 m2 m3) :
    StoresTo i m3 := by
  cases h <;> simp [StoresTo]

theorem StoresTo.dst_unique {m m' : AddrMode} (h : StoresTo i m) (h' : StoresTo i m') : m' = m := by
  obtain ⟨_, _, rfl | rfl | rfl | rfl⟩ := h <;> simpa [StoresTo, eq_comm] using h'

theorem ExecCase.cfg_eq (h : ExecCase i s t) : t.cfg = s.cfg := by
  cases h <;> simp

theorem ExecCase.pending_eq (h : ExecCase i s t) : t.pending = s.pending := by
  cases h <;> simp

/-- R170: only ARB writes `rb`. -/
theorem ExecCase.rb_eq_or_arb (h : ExecCase i s t) : t.rb = s.rb ∨ ∃ m, i = .arb m := by
  cases h with
  | base => exact .inr ⟨_, rfl⟩
  | _ => simp

/-- R141: only OUT writes `lo` and `lov`. -/
theorem ExecCase.output_eq_or_out (h : ExecCase i s t) : (t.lo = s.lo ∧ t.lov = s.lov) ∨ ∃ m, i = .out m := by
  cases h with
  | output => exact .inr ⟨_, rfl⟩
  | _ => simp

/-- Only the five instructions with a destination write memory. -/
theorem ExecCase.mem_eq_or_stores (h : ExecCase i s t) :
    t.mem = s.mem ∨ (∃ m3, StoresTo i m3) ∨ ∃ m, i = .inp m := by
  cases h with
  | binary hi => exact .inr (.inl ⟨_, hi.storesTo⟩)
  | input => exact .inr (.inr ⟨_, rfl⟩)
  | _ => simp

/-- R171: HLT leaves `ip` where it is. -/
theorem ExecCase.ip_eq_of_hlt (h : ExecCase .hlt s t) : t.ip = s.ip := by
  cases h with
  | fault | halt => rfl
  | binary hi => cases hi
  | jump hi => cases hi

/-- R181: how an instruction leaves the controller's elements: it proceeds, suspends, halts, or takes a fault. -/
theorem ExecCase.control_cases (h : ExecCase i s t) :
    (SameControl s t ∧ (t.inq = s.inq ∨ ∃ m, i = .inp m)) ∨
    ((∃ m, i = .out m) ∧ t.es = .suspendedOnOutput ∧ t.inq = [] ∧ t.busy = false ∧ t.fk = s.fk ∧ t.fi = s.fi) ∨
    (i = .hlt ∧ t = s.haltCall) ∨ ∃ k x, t = s.afterFault k x := by
  cases h with
  | fault k x => exact .inr (.inr (.inr ⟨k, x, rfl⟩))
  | output => exact .inr (.inl ⟨⟨_, rfl⟩, rfl, rfl, rfl, rfl, rfl⟩)
  | halt => exact .inr (.inr (.inl ⟨rfl, rfl⟩))
  | _ => simp [SameControl]

/-- R33: every instruction leaves a present cell present. -/
theorem ExecCase.cell_ne_none {x : Word} (h : ExecCase i s t) (hx : s.cell x ≠ none) : t.cell x ≠ none := by
  cases h with
  | binary | input => exact Memory.lookup_store_ne_none _ _ hx
  | _ => simpa using hx

/-- Every transaction but a `Construct` leaves memory as it is. -/
theorem TransactCase.mem_eq {tr : Transaction} (h : TransactCase tr s t)
    (hc : ∀ p, tr ≠ .construct p) : t.mem = s.mem := by
  cases h with
  | constructed => exact absurd rfl (hc _)
  | _ => rfl

/-- What a step of a call can answer: the fetched instruction's effect, or the fault of the fetch. -/
theorem call_step_cases (hb : s.busy = true) (h : step s = .next t) :
    (∃ i, fetch s = .ok i ∧ ExecCase i s t) ∨ ∃ k x, t = s.afterFault k x := by
  rcases step_cases h with ⟨-, -, i, hf, hi⟩ | ⟨-, -, k, x, -, rfl⟩ | ⟨hidle, -⟩
  · exact .inl ⟨i, hf, exec_cases hi⟩
  · exact .inr ⟨k, x, rfl⟩
  · simp [hb] at hidle

end Sys2Proof.Machine
end

section
/-! SUPPORT. The invariant, one rule per update of the state; then every step keeps it. -/

namespace Sys2Proof.Machine

/-! ### Memory within the parameters -/

/-- The three clauses of the invariant that are about memory. -/
structure MemoryOk (cfg : Config) (m : Memory) : Prop where
  wf : m.wf
  capacity : ∀ n, cfg.memCells = some n → m.length ≤ n
  noNegative : cfg.negAddr = .refuse → ∀ c ∈ m, c.1 < 2 ^ 63

theorem State.Inv.memoryOk {s : State} (h : s.Inv) : MemoryOk s.cfg s.mem := ⟨h.memWf, h.capacity, h.noNegative⟩

/-- R55: under the policy `refuse` an accessible address is one of the low half of the keys. -/
theorem toNat_lt_of_accessible {s : State} {x : Word} (h : s.Accessible x) (hp : s.cfg.negAddr = .refuse) :
    x.toNat < 2 ^ 63 := by
  rcases h with h | h
  · rw [hp] at h
    cases h
  · rw [BitVec.toInt_eq_toNat_cond] at h
    split at h <;> omega

/-- R53, R55: a write that is done keeps memory within the parameters. -/
theorem MemoryOk.store {s : State} {d v : Word} (h : MemoryOk s.cfg s.mem) (hr : Config.refuses s.cfg d = false)
    (hf : s.cell d = none → s.full = false) : MemoryOk s.cfg (s.mem.store d.toNat v) where
  wf := Memory.store_wf v h.wf d.isLt
  capacity n hn := by
    by_cases hc : s.cell d = none
    · exact (Memory.length_store_le _ _ _).trans (State.full_eq_false_iff.mp (hf hc) n hn)
    · rw [Memory.length_store_present v h.wf hc]
      exact h.capacity n hn
  noNegative hp c hc := by
    rcases Memory.mem_store hc with rfl | hc
    · exact toNat_lt_of_accessible (refuses_eq_false_iff.mp hr) hp
    · exact h.noNegative hp c hc

/-- R250: an accepted program is placed within the parameters. -/
theorem MemoryOk.load {cfg : Config} {p : List Word} (h : programWf cfg p = true) : MemoryOk cfg (Memory.load 0 p) := by
  obtain ⟨-, hcells, hlen⟩ := programWf_iff.mp h
  exact {
    wf := Memory.load_wf (by omega)
    capacity := fun n hn => by simpa using hcells n hn
    noNegative := fun _ c hc => by
      have := (Memory.mem_load hc).2
      omega }

namespace State.Inv

variable {s t : State}

/-! ### Updates by instructions. A running machine is not at a HLT, so its `ip` and memory are free to change. -/

theorem setIp (h : s.Inv) (hr : s.es = .running) (x : Word) : (s.setIp x).Inv :=
  { h with haltedAtHlt := fun he => by simp [hr] at he }

theorem advance (h : s.Inv) (hr : s.es = .running) (n : Nat) : (s.advance n).Inv := h.setIp hr _

theorem setRb (h : s.Inv) (x : Word) : (s.setRb x).Inv := { h with }

theorem setOutput (h : s.Inv) (v : Word) : (s.setOutput v).Inv := { h with suspendedOutput := fun _ => rfl }

/-- R28: taking the front value keeps the queue within its bound, and empty between calls. -/
theorem setInq_tail (h : s.Inv) {v : Word} {rest : List Word} (hq : s.inq = v :: rest) : (s.setInq rest).Inv :=
  { h with
    queueBound := fun n hn => by
      have := h.queueBound n hn
      simp only [hq, List.length_cons] at this
      exact (Nat.le_succ _).trans this
    queueIdle := fun hb => by simpa [hq] using h.queueIdle hb }

theorem memWrite (h : s.Inv) (hr : s.es = .running) {d v : Word} (hw : Machine.memWrite s d v = .ok t) : t.Inv := by
  obtain ⟨href, hfull, rfl⟩ := memWrite_ok hw
  have hm : MemoryOk s.cfg (s.mem.store d.toNat v) := h.memoryOk.store href hfull
  exact { h with
    memWf := hm.wf
    capacity := hm.capacity
    noNegative := hm.noNegative
    haltedAtHlt := fun he => by simp [hr] at he }

/-! ### The end of a call -/

/-- A running machine has no fault latched. -/
theorem fk_eq_none (h : s.Inv) (hr : s.es = .running) : s.fk = none := by
  by_contra hk
  exact absurd (h.faultLatched.mpr hk) (by simp [hr])

theorem yieldCall (h : s.Inv) (hr : s.es = .running) (hv : s.lov = true) : s.yieldCall.Inv :=
  { h with
    queueBound := fun _ _ => Nat.zero_le _
    queueIdle := fun _ => rfl
    callRunning := fun hb => by cases hb
    faultLatched := by simp [h.fk_eq_none hr]
    suspendedOutput := fun _ => hv
    haltedAtHlt := fun he => by cases he }

theorem haltCall (h : s.Inv) (hr : s.es = .running) (hf : fetch s = .ok .hlt) : s.haltCall.Inv :=
  { h with
    queueBound := fun _ _ => Nat.zero_le _
    queueIdle := fun _ => rfl
    callRunning := fun hb => by cases hb
    faultLatched := by simp [h.fk_eq_none hr]
    suspendedOutput := fun he => by cases he
    haltedAtHlt := fun _ => by
      obtain ⟨w, hw, hd⟩ := fetch_ok hf
      exact ⟨w, (memRead_ok hw).2, hd⟩ }

theorem takeFault (h : s.Inv) (k : FaultKind) (x : Word) : (s.takeFault k x).Inv :=
  { h with
    queueBound := fun _ _ => Nat.zero_le _
    queueIdle := fun _ => rfl
    callRunning := fun hb => by cases hb
    faultLatched := by simp
    infoClear := fun hk => by cases hk
    suspendedOutput := fun he => by cases he
    haltedAtHlt := fun he => by cases he }

/-! ### Transactions -/

/-- The invariant does not look at the host's side of the interface. -/
theorem withHost (h : s.Inv) (ts : List Transaction) (rs : List Response) :
    State.Inv { s with pending := ts, responses := rs } := { h with }

theorem respond (h : s.Inv) (r : Response) : (s.respond r).Inv := h.withHost _ _

theorem construct (s : State) {p : List Word} (hp : programWf s.cfg p = true) : (s.construct p).Inv :=
  have hm : MemoryOk s.cfg (Memory.load 0 p) := .load hp
  { memWf := hm.wf
    capacity := hm.capacity
    noNegative := hm.noNegative
    queueBound := fun _ _ => Nat.zero_le _
    queueIdle := fun _ => rfl
    callRunning := fun hb => by cases hb
    faultLatched := by simp
    infoClear := fun _ => rfl
    suspendedOutput := fun he => by cases he
    haltedAtHlt := fun he => by cases he }

theorem beginCall (h : s.Inv) {q : List Word} (hq : batchWf s.cfg q = true)
    (he : s.es = .running ∨ s.es = .suspendedOnOutput) : (s.beginCall q).Inv :=
  { h with
    queueBound := batchWf_iff.mp hq
    queueIdle := fun hb => by cases hb
    callRunning := fun _ => rfl
    faultLatched := by
      have := h.faultLatched
      rcases he with he | he <;> simp_all
    suspendedOutput := fun he => by cases he
    haltedAtHlt := fun he => by cases he }

theorem transactCase {tr : Transaction} (h : s.Inv) (hc : TransactCase tr s t) : t.Inv := by
  cases hc with
  | refused | halted | faulted | peeked => exact h.respond _
  | constructed hb hp => exact (construct s hp).respond _
  | started hb hq he => exact h.beginCall hq he

theorem hostMove (h : s.Inv) : (Machine.hostMove s).Inv := by
  rcases hostMove_cases s with ⟨-, e⟩ | ⟨tr, rest, -, e⟩ <;> rw [e]
  · exact h
  · exact (h.withHost rest s.responses).transactCase (transact_cases tr _)

/-! ### Steps -/

/-- An instruction that a running machine has fetched keeps the invariant. -/
theorem execCase {i : Instr} (h : s.Inv) (hr : s.es = .running) (hf : fetch s = .ok i) (hc : ExecCase i s t) :
    t.Inv := by
  cases hc with
  | fault k x => exact h.takeFault k x
  | binary hi ha hb hd hw => exact (h.memWrite hr hw).advance hr 4
  | input hd hq hw => exact ((h.setInq_tail hq).memWrite hr hw).advance hr 2
  | output ha => exact ((h.setOutput _).advance hr 2).yieldCall hr rfl
  | jump hi ha ht =>
    rw [State.ite_setIp_advance]
    exact h.setIp hr _
  | base ha => exact (h.setRb (aluAdd s.rb _)).advance hr 2
  | halt => exact h.haltCall hr hf

theorem step (h : s.Inv) (hs : Machine.step s = .next t) : t.Inv := by
  rcases step_cases hs with ⟨-, hr, i, hf, hx⟩ | ⟨-, -, k, x, -, rfl⟩ | ⟨-, rfl⟩
  · exact h.execCase hr hf (exec_cases hx)
  · exact h.takeFault k x
  · exact h.hostMove

end State.Inv

/-- Settles O47, by the rule of the invariant for each update that a step is made of. -/
theorem stepKeepsInvariant : Obligations.StepKeepsInvariant := fun _ _ h hs => h.step hs

end Sys2Proof.Machine
end

section
/-! SUPPORT. The claims about what a step may change and what it leaves unchanged, assembled from the facts above. -/

namespace Sys2Proof.Machine

/-- Settles O9: a store keeps every present cell present, and nothing but a store or a `Construct` writes memory. -/
theorem presentCellStaysPresent : Obligations.PresentCellStaysPresent := by
  intro s t x hs hx hpend
  rcases step_cases hs with ⟨-, -, i, -, hi⟩ | ⟨-, -, k, y, -, rfl⟩ | ⟨hb, rfl⟩
  · exact (exec_cases hi).cell_ne_none hx
  · exact hx
  · rcases hostMove_cases s with ⟨-, e⟩ | ⟨tr, rest, hp, e⟩ <;> rw [e]
    · exact hx
    · have hm : (transact tr { s with pending := rest }).mem = s.mem :=
        (transact_cases tr _).mem_eq fun p htr => hpend hb p rest (htr ▸ hp)
      rwa [State.cell, hm]

/-- Settles O26, by the two ways in which an instruction of the shape of `storeBinary` can end. -/
theorem frameOfStoringInstructions : Obligations.FrameOfStoringInstructions := by
  intro i m3 s t hi h
  obtain ⟨f, m1, m2, hb⟩ := hi.binaryOf
  cases exec_cases h with
  | fault k x => exact ⟨fun _ _ _ _ => rfl, rfl, rfl, rfl, rfl, rfl, .inr ⟨k, x, rfl⟩⟩
  | binary hi' _ _ hd =>
    cases hi.dst_unique hi'.storesTo
    refine ⟨fun d' hd' x hx => ?_, rfl, rfl, rfl, rfl, rfl, .inl ⟨⟨_, hd⟩, ⟨rfl, rfl, rfl, rfl, rfl⟩, rfl⟩⟩
    cases hd.symm.trans hd'
    exact State.cell_store_of_ne s _ hx
  | jump hj => cases hb <;> cases hj
  | input | output | base | halt => cases hb

/-- Settles O27: IN either takes the front value and stores it, or takes a fault. -/
theorem frameOfInput : Obligations.FrameOfInput := by
  intro m1 s t h
  cases exec_cases h with
  | fault k x => exact ⟨fun _ _ _ _ => rfl, rfl, rfl, rfl, rfl, rfl, .inr ⟨k, x, rfl⟩⟩
  | input hd hq =>
    refine ⟨fun d' hd' x hx => ?_, rfl, rfl, rfl, rfl, rfl,
      .inl ⟨⟨_, hd⟩, ⟨rfl, rfl, rfl, rfl, rfl⟩, by simp [hq]⟩⟩
    cases hd.symm.trans hd'
    exact State.cell_store_of_ne s _ hx
  | binary hi => cases hi
  | jump hi => cases hi

/-- Settles O28, by the facts about each element: none of the five stores or takes an input, and what the
controller's elements become is `ExecCase.control_cases`. -/
theorem frameOfNonStoringInstructions : Obligations.FrameOfNonStoringInstructions := by
  intro i s t hi h
  have hc := exec_cases h
  have hinp : ∀ m, i ≠ .inp m := by
    rintro m rfl
    simp at hi
  have hmem : t.mem = s.mem := by
    rcases hc.mem_eq_or_stores with h | ⟨m3, m1, m2, rfl | rfl | rfl | rfl⟩ | ⟨m, rfl⟩
    · exact h
    all_goals simp at hi
  refine ⟨fun x => by rw [State.cell, hmem, State.cell], hc.cfg_eq, hc.pending_eq, ?_, ?_, ?_⟩
  · exact fun harb => hc.rb_eq_or_arb.resolve_right fun ⟨m, e⟩ => harb m e
  · exact fun hout => hc.output_eq_or_out.resolve_right fun ⟨m, e⟩ => hout m e
  · rcases hc.control_cases with ⟨hs, hq⟩ | ⟨⟨m, rfl⟩, -, -, -, hk, hf⟩ | ⟨rfl, rfl⟩ | hfault
    · have ⟨_, hk, hf, _⟩ := hs
      exact .inl ⟨hk, hf, fun _ => ⟨hs, hq.resolve_right fun ⟨m, e⟩ => hinp m e⟩⟩
    · exact .inl ⟨hk, hf, fun hne => absurd rfl (hne.1 m)⟩
    · exact .inl ⟨rfl, rfl, fun hne => absurd rfl hne.2⟩
    · exact .inr hfault

/-- Settles O29, by the ways in which each instruction can end. -/
theorem pointerAfterInstruction : Obligations.PointerAfterInstruction := by
  intro i s t hr h
  have hrun : ∀ u : State, u.es = s.es → u.es ≠ .faulted := fun u hu hf => by simp [hu, hr] at hf
  cases exec_cases h with
  | fault k x => exact ⟨fun _ => rfl, fun hne => absurd rfl hne⟩
  | binary hi =>
    refine ⟨fun hf => absurd hf (hrun _ rfl), fun _ => ?_⟩
    cases hi <;> rfl
  | input | base => exact ⟨fun hf => absurd hf (hrun _ rfl), fun _ => rfl⟩
  | output => exact ⟨(by cases ·), fun _ => ⟨rfl, rfl⟩⟩
  | halt => exact ⟨fun _ => rfl, fun _ => rfl⟩
  | @jump _ _ c m1 m2 a x hi ha hx =>
    rw [State.ite_setIp_advance]
    refine ⟨fun hf => absurd hf (hrun _ rfl), fun _ => ?_⟩
    have ha := readsAs_of_readVal_ok ha
    have hx := readsAs_of_readVal_ok hx
    cases hi with
    | jnz =>
      by_cases hz : a.toInt = 0
      · exact ⟨a, ha, .inl ⟨hz, by simp [wordTrue, hz, addrPlus]⟩⟩
      · exact ⟨a, ha, .inr ⟨hz, by simpa [wordTrue, hz] using hx⟩⟩
    | jz =>
      by_cases hz : a.toInt = 0
      · exact ⟨a, ha, .inr ⟨hz, by simpa [wordTrue, hz] using hx⟩⟩
      · exact ⟨a, ha, .inl ⟨hz, by simp [wordTrue, hz, addrPlus]⟩⟩

/-- Settles O30: each clause is the contrapositive of a fact about `ExecCase`; a fault of the fetch writes nothing but the
controller's elements. -/
theorem writersOfEachElement : Obligations.WritersOfEachElement := by
  intro s t hb hs
  rcases call_step_cases hb hs with ⟨i, hf, hc⟩ | ⟨k, x, rfl⟩
  · simp only [hf, Except.ok.injEq]
    refine ⟨hc.rb_eq_or_arb.resolve_left,
      fun h => hc.output_eq_or_out.resolve_left fun ⟨hlo, hlov⟩ => h.elim (· hlo) (· hlov),
      fun h => ⟨i, rfl, hc.mem_eq_or_stores.resolve_left h⟩, fun hi => (hi ▸ hc).ip_eq_of_hlt, ?_⟩
    rcases hc.control_cases with
      ⟨⟨hes, hfk, hfi, hbusy, -⟩, hq⟩ | ⟨hout, hes, -, hidle, hfk, hfi⟩ | ⟨rfl, rfl⟩ | hfault
    · exact ⟨fun h => .inl (hq.resolve_left h), fun h => by simp [hes, hbusy, hb] at h,
        fun h => by simp [hfk, hfi] at h, hc.cfg_eq, hc.pending_eq⟩
    · exact ⟨fun _ => .inr hidle, fun _ => .inl ⟨hout, hes⟩, fun h => by simp [hfk, hfi] at h,
        hc.cfg_eq, hc.pending_eq⟩
    · exact ⟨fun _ => .inr rfl, fun _ => .inr (.inl ⟨rfl, rfl⟩), fun h => by simp at h, rfl, rfl⟩
    · exact ⟨fun _ => .inr (by obtain ⟨k, x, rfl⟩ := hfault; rfl), fun _ => .inr (.inr hfault), fun _ => hfault,
        hc.cfg_eq, hc.pending_eq⟩
  · have hfault : ∃ k' x', s.afterFault k x = s.afterFault k' x' := ⟨k, x, rfl⟩
    exact ⟨fun h => absurd rfl h, fun h => by simp [State.afterFault] at h, fun h => absurd rfl h, fun _ => rfl,
      fun _ => .inr rfl, fun _ => .inr (.inr hfault), fun _ => hfault, rfl, rfl⟩

/-- Settles O39: whether `Construct` is done is `programWf_iff`, and what it places is `Memory.lookup_load`. -/
theorem constructSetsEveryElement : Obligations.ConstructSetsEveryElement := by
  intro s p hb
  refine ⟨fun hprog hcells hlen => ?_, fun n hn hlen => ?_⟩
  · have hwf : programWf s.cfg p = true := programWf_iff.mpr ⟨hprog, hcells, hlen⟩
    have ht : transact (.construct p) s = (s.construct p).respond .constructed := by simp [transact, hb, hwf]
    exact ⟨_, ht, fun x => by simpa [State.cell] using Memory.lookup_load p 0 x.toNat, rfl⟩
  · have hwf : ¬ programWf s.cfg p = true := fun h => by
      obtain ⟨hprog, hcells, -⟩ := programWf_iff.mp h
      exact absurd (hn.elim (hprog n) (hcells n)) (by omega)
    simp [transact, hb, hwf, State.respond]

/-- Settles O33: the tables of codes, row by row. -/
theorem statusCodes : Obligations.StatusCodes := ⟨rfl, rfl, rfl, rfl, rfl, rfl, rfl, rfl, rfl, rfl⟩

/-- Settles O40: each element by evaluation, and no key is listed. -/
theorem resetState : Obligations.ResetState := ⟨rfl, fun _ => rfl⟩

/-- Settles O46: the idle machine with no cell and no bound meets each clause. -/
theorem resetMeetsInvariant : Obligations.ResetMeetsInvariant where
  memWf := reset_mem_wf
  capacity _ hn := by cases hn
  noNegative hp := by cases hp
  queueBound _ hn := by cases hn
  queueIdle _ := rfl
  callRunning hb := by cases hb
  faultLatched := by decide
  infoClear _ := rfl
  suspendedOutput he := by cases he
  haltedAtHlt he := by cases he

end Sys2Proof.Machine
end

section
/-! SUPPORT. The memory primitives and the fetch by the properties of Safety.lean: what each answers for a cell that is
held or absent, and for an address that is writable, over capacity or forbidden. -/

namespace Sys2Proof.Machine

variable {s t : State}

/-! ### When an access is refused and when memory is full -/

theorem refuses_eq_true_iff {x : Word} : Config.refuses s.cfg x = true ↔ s.Forbidden x := by
  simp [Config.refuses, State.Forbidden]

theorem State.full_eq_true_iff : s.full = true ↔ ∃ n, s.cfg.memCells = some n ∧ n ≤ s.mem.length := by
  rw [← Bool.not_eq_false, State.full_eq_false_iff]
  simp

/-! ### `MemRead` -/

theorem memRead_raise_iff {x y : Word} {k : FaultKind} :
    memRead s x = .error (.raise k y) ↔ k = .memoryFault ∧ y = x ∧ s.Absent x := by
  constructor
  · intro h
    obtain ⟨e, -⟩ | ⟨e, hr, hc⟩ := memRead_error h <;> cases e
    exact ⟨rfl, rfl, refuses_eq_false_iff.mp hr, hc⟩
  · rintro ⟨rfl, rfl, ha, hc⟩
    simp [memRead, refuses_eq_false_iff.mpr ha, hc]

theorem memRead_stuck_iff {x : Word} {r : Fault} :
    memRead s x = .error (.stuck r) ↔ r = .negativeAddress x ∧ s.Forbidden x := by
  constructor
  · intro h
    obtain ⟨e, hr⟩ | ⟨e, -⟩ := memRead_error h <;> cases e
    exact ⟨rfl, refuses_eq_true_iff.mp hr⟩
  · rintro ⟨rfl, hf⟩
    simp [memRead, refuses_eq_true_iff.mpr hf]

/-! ### `MemWrite` -/

theorem memWrite_of_writable {x : Word} (v : Word) (h : s.Writable x) :
    memWrite s x v = .ok (s.setMem (s.mem.store x.toNat v)) := by
  obtain ⟨ha, hroom⟩ := h
  have hfits : ¬ (s.cell x = none ∧ s.full = true) := by
    rintro ⟨hc, hfull⟩
    obtain ⟨n, hn, hle⟩ := State.full_eq_true_iff.mp hfull
    have := hroom.resolve_left (not_not_intro hc) n hn
    omega
  simp [memWrite, refuses_eq_false_iff.mpr ha, hfits]

theorem memWrite_of_overCapacity {x : Word} (v : Word) (h : s.OverCapacity x) :
    memWrite s x v = .error (.raise .capacityFault x) := by
  obtain ⟨ha, hc, hn⟩ := h
  simp [memWrite, refuses_eq_false_iff.mpr ha, hc, State.full_eq_true_iff.mpr hn]

theorem memWrite_of_forbidden {x : Word} (v : Word) (h : s.Forbidden x) :
    memWrite s x v = .error (.stuck (.negativeAddress x)) := by
  simp [memWrite, refuses_eq_true_iff.mpr h]

/-- R54: a write that is done leaves its address holding the value. -/
theorem holds_of_memWrite {a v : Word} (h : memWrite s a v = .ok t) : t.Holds a v := by
  obtain ⟨hr, -, rfl⟩ := memWrite_ok h
  exact ⟨refuses_eq_false_iff.mp hr, s.cell_store_self a v⟩

/-- R53: a write that is done leaves what every other address holds. -/
theorem State.Holds.memWrite {a b v w : Word} (hs : s.Holds a v) (hne : b ≠ a) (h : memWrite s b w = .ok t) :
    t.Holds a v := by
  obtain ⟨-, -, rfl⟩ := memWrite_ok h
  exact ⟨hs.1, (s.cell_store_of_ne w hne.symm).trans hs.2⟩

/-- R53, R54: so does any finite sequence of such writes. -/
theorem State.Holds.foldlM_memWrite {a v : Word} {ws : List (Word × Word)} (hs : s.Holds a v)
    (hne : ∀ w ∈ ws, w.1 ≠ a) (h : ws.foldlM (fun u w => Machine.memWrite u w.1 w.2) s = .ok t) : t.Holds a v := by
  induction ws generalizing s with
  | nil =>
    cases h
    exact hs
  | cons w ws ih =>
    rw [List.foldlM_cons] at h
    obtain ⟨u, hw, h⟩ := except_bind_ok h
    obtain ⟨hw_ne, hws_ne⟩ := List.forall_mem_cons.mp hne
    exact ih (hs.memWrite hw_ne hw) hws_ne h

/-! ### The fetch of a held word -/

@[simp] theorem State.holds_setIp {a x v : Word} : (s.setIp a).Holds x v ↔ s.Holds x v := .rfl

theorem fetch_of_decode_ok {raw : Word} {i : Instr} (h : s.Holds s.ip raw) (hd : decode raw = .ok i) :
    fetch s = .ok i := by
  simp [fetch, memRead_ok_iff.mpr h, hd]

theorem fetch_of_decode_error {raw : Word} {f : DecodeFault} (h : s.Holds s.ip raw) (hd : decode raw = .error f) :
    fetch s = .error (.raise (decodeFaultKind f) raw) := by
  simp [fetch, memRead_ok_iff.mpr h, hd]

end Sys2Proof.Machine
end

section
/-! SUPPORT. The claims about memory, assembled from the facts above. -/

namespace Sys2Proof.Machine

/-- Settles O5: each of the three answers of `MemRead` is equivalent to one property of the address. -/
theorem readReturnsCellOrFaults : Obligations.ReadReturnsCellOrFaults :=
  fun _ _ => ⟨fun _ => memRead_ok_iff, fun _ _ => memRead_raise_iff, fun _ => memRead_stuck_iff⟩

/-- Settles O6: what `MemWrite` answers in each case; the state it stores into differs in memory alone, and there only at
the address written. -/
theorem writeStoresOrFaults : Obligations.WriteStoresOrFaults := by
  intro s x v
  refine ⟨fun h => ?_, memWrite_of_overCapacity v, memWrite_of_forbidden v⟩
  exact ⟨_, memWrite_of_writable v h, s.cell_store_self x v, fun y hy => s.cell_store_of_ne v hy, rfl⟩

/-- Settles O7: the address holds the value after the write, and still does after the writes to other addresses. -/
theorem readReturnsLatestWrite : Obligations.ReadReturnsLatestWrite := by
  intro s t u a v ws hw hws hne
  exact memRead_ok_iff.mpr ((holds_of_memWrite hw).foldlM_memWrite hne hws)

/-- Settles O8: the fetch reads the word that the store left, by the three answers of the decoder. -/
theorem storeIsSeenByNextFetch : Obligations.StoreIsSeenByNextFetch := by
  intro s t d v hw
  have hd : (t.setIp d).Holds d v := State.holds_setIp.mpr (holds_of_memWrite hw)
  cases he : decode v with
  | ok i => exact fetch_of_decode_ok hd he
  | error f =>
    cases f with
    | invalidOpcode => exact fetch_of_decode_error hd he
    | reservedMode => exact fetch_of_decode_error hd he

end Sys2Proof.Machine
end

section
/-! SUPPORT. The decoder said once: `Decodes raw r` lists, from the fields of the word alone, every answer `r` that
spec/30_encoding.md R82 to R91 allow, and `decode_eq_iff_decodes` ties it to the decoder. -/

namespace Sys2Proof

/-! ### Digits and modes -/

theorem AddrMode.digit_le_two (m : AddrMode) : m.digit ≤ 2 := by
  cases m <;> decide

theorem modeOfDigit_digit (m : AddrMode) : modeOfDigit m.digit = some m := by
  cases m <;> rfl

theorem AddrMode.digit_injective : Function.Injective AddrMode.digit := fun m m' h =>
  Option.some.inj <| by rw [← modeOfDigit_digit m, h, modeOfDigit_digit m']

/-- R86: a digit stands for the mode whose digit it is. -/
theorem digit_of_modeOfDigit_eq_some {d : Nat} {m : AddrMode} (h : modeOfDigit d = some m) : m.digit = d := by
  unfold modeOfDigit at h
  split at h <;> cases h <;> rfl

/-- R87: a digit that stands for no mode is reserved. -/
theorem three_le_of_modeOfDigit_eq_none {d : Nat} (h : modeOfDigit d = none) : 3 ≤ d := by
  match d, h with
  | d + 3, _ => exact Nat.le_add_left 3 d

/-! ### Opcodes and operands -/

/-- R84: the opcode of an instruction is one of the ten. -/
theorem Instr.opcode_mem (i : Instr) : i.opcode ∈ [1, 2, 3, 4, 5, 6, 7, 8, 9, 99] := by
  cases i <;> simp [Instr.opcode]

/-- R84: the opcode has exactly the operands that the instruction has modes for. -/
theorem Instr.opcodeHasOperand_succ_iff (i : Instr) (k : Nat) :
    opcodeHasOperand i.opcode (k + 1) = true ↔ k < i.modes.length := by
  match k with
  | 0 | 1 | 2 => cases i <;> simp [opcodeHasOperand, Instr.opcode, Instr.modes]
  | k + 3 => cases i <;> simp [opcodeHasOperand, Instr.modes]

/-- R84: the length is 1 + the number of operands of the opcode. -/
theorem Instr.length_eq (i : Instr) : i.length = 1 + ([1, 2, 3].filter (opcodeHasOperand i.opcode)).length := by
  cases i <;> rfl

theorem operand_position {op k : Nat} (h : opcodeHasOperand op k = true) : k ∈ [1, 2, 3] := by
  match k, h with
  | 1, _ | 2, _ | 3, _ => simp

/-- An instruction is its opcode with its modes. -/
theorem Instr.eq_iff_opcode_modes {i j : Instr} : i = j ↔ i.opcode = j.opcode ∧ i.modes = j.modes := by
  cases i <;> cases j <;> simp [Instr.opcode, Instr.modes]

/-! ### What a word can decode to -/

/-- R81: the instruction's opcode is that of the word, and the mode of each operand has the digit of its position. -/
structure HasFields (i : Instr) (n : Nat) : Prop where
  opcode : i.opcode = n % 100
  digits : ∀ k m, i.modes[k]? = some m → m.digit = modeDigit n (k + 1)

/-- R90: the word's class, one constructor for each of the three. -/
inductive Decodes (raw : Word) : Except DecodeFault Instr → Prop
  | invalid (h : raw.toInt < 0 ∨ raw.toNat % 100 ∉ [1, 2, 3, 4, 5, 6, 7, 8, 9, 99]) :
      Decodes raw (.error .invalidOpcode)
  | reserved {k : Nat} (hpos : 0 ≤ raw.toInt) (hop : raw.toNat % 100 ∈ [1, 2, 3, 4, 5, 6, 7, 8, 9, 99])
      (hk : opcodeHasOperand (raw.toNat % 100) k = true) (hd : 3 ≤ modeDigit raw.toNat k) :
      Decodes raw (.error .reservedMode)
  | instr {i : Instr} (hpos : 0 ≤ raw.toInt) (hi : HasFields i raw.toNat) : Decodes raw (.ok i)

namespace HasFields

variable {i j : Instr} {n : Nat}

theorem opcode_mem (h : HasFields i n) : n % 100 ∈ [1, 2, 3, 4, 5, 6, 7, 8, 9, 99] := h.opcode ▸ i.opcode_mem

/-- R87: no reserved digit stands in the position of an operand. -/
theorem modeDigit_le_two (h : HasFields i n) {k : Nat} (hk : opcodeHasOperand (n % 100) k = true) :
    modeDigit n k ≤ 2 := by
  cases k with
  | zero => cases hk
  | succ k =>
    have hlt : k < i.modes.length := (i.opcodeHasOperand_succ_iff k).mp (h.opcode ▸ hk)
    exact h.digits k _ (List.getElem?_eq_getElem hlt) ▸ AddrMode.digit_le_two _

/-- R91: the fields of a word determine the instruction. -/
theorem unique (hi : HasFields i n) (hj : HasFields j n) : i = j := by
  have hop : i.opcode = j.opcode := hi.opcode.trans hj.opcode.symm
  have hlen : i.modes.length = j.modes.length := by
    have := i.length_eq.trans (hop ▸ j.length_eq.symm)
    simpa [Instr.length] using this
  refine Instr.eq_iff_opcode_modes.mpr ⟨hop, List.ext_getElem hlen fun k hki hkj => AddrMode.digit_injective ?_⟩
  exact (hi.digits k _ (List.getElem?_eq_getElem hki)).trans (hj.digits k _ (List.getElem?_eq_getElem hkj)).symm

end HasFields

namespace Decodes

variable {raw raw' : Word} {r r' : Except DecodeFault Instr}

/-- R90: the three classes exclude each other, and a word is at most one instruction. -/
theorem unique (h : Decodes raw r) (h' : Decodes raw r') : r = r' := by
  cases h with
  | invalid h =>
    cases h' with
    | invalid => rfl
    | reserved hpos hop => exact absurd h (not_or.mpr ⟨not_lt.mpr hpos, not_not_intro hop⟩)
    | instr hpos hi => exact absurd h (not_or.mpr ⟨not_lt.mpr hpos, not_not_intro hi.opcode_mem⟩)
  | reserved hpos hop hk hd =>
    cases h' with
    | invalid h => exact absurd h (not_or.mpr ⟨not_lt.mpr hpos, not_not_intro hop⟩)
    | reserved => rfl
    | instr _ hi => exact absurd (hd.trans (hi.modeDigit_le_two hk)) (by decide)
  | instr hpos hi =>
    cases h' with
    | invalid h => exact absurd h (not_or.mpr ⟨not_lt.mpr hpos, not_not_intro hi.opcode_mem⟩)
    | reserved _ _ hk hd => exact absurd (hd.trans (hi.modeDigit_le_two hk)) (by decide)
    | instr _ hj => rw [hi.unique hj]

/-- R83: the class looks at the opcode and the digits of its operands, and at no other digit. -/
theorem congr_fields (hpos : 0 ≤ raw.toInt) (hpos' : 0 ≤ raw'.toInt) (hop : raw'.toNat % 100 = raw.toNat % 100)
    (hd : ∀ k, opcodeHasOperand (raw.toNat % 100) k = true → modeDigit raw'.toNat k = modeDigit raw.toNat k)
    (h : Decodes raw r) : Decodes raw' r := by
  cases h with
  | invalid h => exact .invalid (.inr (hop ▸ h.resolve_left (not_lt.mpr hpos)))
  | reserved _ hmem hk hres => exact .reserved hpos' (hop ▸ hmem) (hop ▸ hk) (hd _ hk ▸ hres)
  | @instr i _ hi =>
    refine .instr hpos' ⟨hi.opcode.trans hop.symm, fun k m hm => ?_⟩
    have hk : opcodeHasOperand i.opcode (k + 1) = true :=
      (i.opcodeHasOperand_succ_iff k).mpr (List.getElem?_eq_some_iff.mp hm).1
    exact (hi.digits k m hm).trans (hd _ (hi.opcode ▸ hk)).symm

end Decodes

/-! ### The decoder answers the word's class -/

section Rows

variable {raw : Word}

/-- R87: a reserved digit in the position of an operand of `i`, for a word with the opcode of `i`. -/
theorem Decodes.reserved_of_modeOfDigit {i : Instr} {k : Nat} (hpos : 0 ≤ raw.toInt)
    (hop : i.opcode = raw.toNat % 100) (hk : k < i.modes.length)
    (hd : modeOfDigit (modeDigit raw.toNat (k + 1)) = none) : Decodes raw (.error .reservedMode) :=
  .reserved hpos (hop ▸ i.opcode_mem) (hop ▸ (i.opcodeHasOperand_succ_iff k).mpr hk)
    (three_le_of_modeOfDigit_eq_none hd)

/-- The rows with one operand: IN, OUT and ARB. -/
theorem decodes_decodeOne {mk : AddrMode → Instr} (hpos : 0 ≤ raw.toInt)
    (hop : ∀ a, (mk a).opcode = raw.toNat % 100) (hmodes : ∀ a, (mk a).modes = [a]) :
    Decodes raw (decodeOne mk (modeOfDigit (modeDigit raw.toNat 1))) := by
  cases h1 : modeOfDigit (modeDigit raw.toNat 1) with
  | none => exact .reserved_of_modeOfDigit hpos (hop .position) (by simp [hmodes]) h1
  | some a =>
    refine .instr hpos ⟨hop a, fun k m hm => ?_⟩
    rw [hmodes] at hm
    match k, hm with
    | 0, rfl => exact digit_of_modeOfDigit_eq_some h1

/-- The rows with two operands: JNZ and JZ. -/
theorem decodes_decodeTwo {mk : AddrMode → AddrMode → Instr} (hpos : 0 ≤ raw.toInt)
    (hop : ∀ a b, (mk a b).opcode = raw.toNat % 100) (hmodes : ∀ a b, (mk a b).modes = [a, b]) :
    Decodes raw (decodeTwo mk (modeOfDigit (modeDigit raw.toNat 1)) (modeOfDigit (modeDigit raw.toNat 2))) := by
  cases h1 : modeOfDigit (modeDigit raw.toNat 1) with
  | none => exact .reserved_of_modeOfDigit hpos (hop .position .position) (by simp [hmodes]) h1
  | some a =>
    cases h2 : modeOfDigit (modeDigit raw.toNat 2) with
    | none => exact .reserved_of_modeOfDigit hpos (hop .position .position) (by simp [hmodes]) h2
    | some b =>
      refine .instr hpos ⟨hop a b, fun k m hm => ?_⟩
      rw [hmodes] at hm
      match k, hm with
      | 0, rfl => exact digit_of_modeOfDigit_eq_some h1
      | 1, rfl => exact digit_of_modeOfDigit_eq_some h2

/-- The rows with three operands: ADD, MUL, LT and EQ. -/
theorem decodes_decodeThree {mk : AddrMode → AddrMode → AddrMode → Instr} (hpos : 0 ≤ raw.toInt)
    (hop : ∀ a b d, (mk a b d).opcode = raw.toNat % 100) (hmodes : ∀ a b d, (mk a b d).modes = [a, b, d]) :
    Decodes raw (decodeThree mk (modeOfDigit (modeDigit raw.toNat 1)) (modeOfDigit (modeDigit raw.toNat 2))
      (modeOfDigit (modeDigit raw.toNat 3))) := by
  have hop0 := hop .position .position .position
  cases h1 : modeOfDigit (modeDigit raw.toNat 1) with
  | none => exact .reserved_of_modeOfDigit hpos hop0 (by simp [hmodes]) h1
  | some a =>
    cases h2 : modeOfDigit (modeDigit raw.toNat 2) with
    | none => exact .reserved_of_modeOfDigit hpos hop0 (by simp [hmodes]) h2
    | some b =>
      cases h3 : modeOfDigit (modeDigit raw.toNat 3) with
      | none => exact .reserved_of_modeOfDigit hpos hop0 (by simp [hmodes]) h3
      | some d =>
        refine .instr hpos ⟨hop a b d, fun k m hm => ?_⟩
        rw [hmodes] at hm
        match k, hm with
        | 0, rfl => exact digit_of_modeOfDigit_eq_some h1
        | 1, rfl => exact digit_of_modeOfDigit_eq_some h2
        | 2, rfl => exact digit_of_modeOfDigit_eq_some h3

/-- R91 on a non-negative word, by the rows of the opcode table. -/
theorem decodes_decodeFields (hpos : 0 ≤ raw.toInt) : Decodes raw (decodeFields raw.toNat) := by
  unfold decodeFields
  split
  case h_1 hop | h_2 hop | h_7 hop | h_8 hop =>
    exact decodes_decodeThree hpos (fun _ _ _ => hop.symm) fun _ _ _ => rfl
  case h_5 hop | h_6 hop => exact decodes_decodeTwo hpos (fun _ _ => hop.symm) fun _ _ => rfl
  case h_3 hop | h_4 hop | h_9 hop => exact decodes_decodeOne hpos (fun _ => hop.symm) fun _ => rfl
  case h_10 hop => exact .instr hpos ⟨hop.symm, fun _ _ hm => by cases hm⟩
  case h_11 h1 h2 h3 h4 h5 h6 h7 h8 h9 h99 =>
    exact .invalid (.inr (by simpa using ⟨h1, h2, h3, h4, h5, h6, h7, h8, h9, h99⟩))

theorem decodes_decode (raw : Word) : Decodes raw (decode raw) := by
  unfold decode
  split
  case isTrue hneg => exact .invalid (.inl hneg)
  case isFalse hpos => exact decodes_decodeFields (not_lt.mp hpos)

/-- R90, R91: the decoder answers the class of the word, and nothing else is its class. -/
theorem decode_eq_iff_decodes {r : Except DecodeFault Instr} : decode raw = r ↔ Decodes raw r :=
  ⟨fun h => h ▸ decodes_decode raw, fun h => (decodes_decode raw).unique h⟩

/-- R90: what the check of an instruction word says. -/
theorem instrWordWf_iff : instrWordWf raw = true ↔
    0 ≤ raw.toInt ∧ raw.toNat % 100 ∈ [1, 2, 3, 4, 5, 6, 7, 8, 9, 99] ∧
      ∀ k, opcodeHasOperand (raw.toNat % 100) k = true → modeDigit raw.toNat k ≤ 2 := by
  have hall : (∀ k, opcodeHasOperand (raw.toNat % 100) k = true → modeDigit raw.toNat k ≤ 2) ↔
      ∀ k ∈ [1, 2, 3], opcodeHasOperand (raw.toNat % 100) k = true → modeDigit raw.toNat k ≤ 2 :=
    ⟨fun h k _ => h k, fun h k hk => h k (operand_position hk) hk⟩
  rw [hall]
  simp only [instrWordWf, opcodeLegal, Bool.and_eq_true, decide_eq_true_eq, List.all_eq_true, Bool.or_eq_true,
    Bool.not_eq_true', and_assoc, ← Bool.not_eq_true, imp_iff_not_or]

end Rows

/-! ### The fields of an encoded instruction -/

/-- R81, R93: the fields of the instruction word, by the lemma of each constructor. -/
theorem encodedFields (i : Instr) : Laws.EncodedFields.Statement i := by
  cases i with
  | add a b dst => exact Laws.EncodedFields.add a b dst
  | mul a b dst => exact Laws.EncodedFields.mul a b dst
  | inp dst => exact Laws.EncodedFields.inp dst
  | out a => exact Laws.EncodedFields.out a
  | jnz a target => exact Laws.EncodedFields.jnz a target
  | jz a target => exact Laws.EncodedFields.jz a target
  | lt a b dst => exact Laws.EncodedFields.lt a b dst
  | eq a b dst => exact Laws.EncodedFields.eq a b dst
  | arb a => exact Laws.EncodedFields.arb a
  | hlt => exact Laws.EncodedFields.hlt

/-- R93: digit `k` of the number that a list of modes makes is the digit of its mode `k`. -/
theorem modeDigits_digit {ms : List AddrMode} {k : Nat} {m : AddrMode} (h : ms[k]? = some m) :
    modeDigits ms / 10 ^ k % 10 = m.digit := by
  induction ms generalizing k with
  | nil => cases h
  | cons x xs ih =>
    have hx := x.digit_le_two
    cases k with
    | zero =>
      cases h
      simp only [modeDigits, pow_zero, Nat.div_one]
      omega
    | succ k =>
      have htail : modeDigits (x :: xs) / 10 = modeDigits xs := by
        simp only [modeDigits]
        omega
      rw [pow_succ', ← Nat.div_div_eq_div_mul, htail]
      exact ih h

/-- R81: the mode digits of a word are the digits above its opcode. -/
theorem modeDigit_succ (n k : Nat) : modeDigit n (k + 1) = n / 100 / 10 ^ k % 10 := by
  rw [modeDigit, Nat.div_div_eq_div_mul, show 10 ^ (k + 1 + 1) = 100 * 10 ^ k by ring]

theorem hasFields_encode (i : Instr) : HasFields i (encode i).toNat := by
  obtain ⟨-, hop, hmodes⟩ := encodedFields i
  refine ⟨hop.symm, fun k m hm => ?_⟩
  rw [modeDigit_succ, hmodes, modeDigits_digit hm]

end Sys2Proof
end

section
/-! SUPPORT. The claims about the encoding, assembled from the facts above. -/

namespace Sys2Proof

/-- Settles O1: the instruction has the fields of its own word, and the decoder answers the one that has. -/
theorem decodeEncodeRoundTrip : Obligations.DecodeEncodeRoundTrip := by
  intro i
  obtain ⟨hpos, -, -⟩ := encodedFields i
  exact decode_eq_iff_decodes.mpr (.instr hpos (hasFields_encode i))

/-- Settles O2: each clause is one constructor of `Decodes`. -/
theorem decodeClassifiesEveryWord : Obligations.DecodeClassifiesEveryWord := by
  intro raw
  simp only [decode_eq_iff_decodes]
  refine ⟨⟨fun h => ?_, .invalid⟩, ⟨fun h => ?_, ?_⟩, fun i => ⟨fun h => ?_, ?_⟩, fun i h => ?_⟩
  · cases h with
    | invalid h => exact h
  · cases h with
    | reserved hpos hop hk hd => exact ⟨hpos, hop, _, operand_position hk, hk, hd⟩
  · rintro ⟨hpos, hop, k, -, hk, hd⟩
    exact .reserved hpos hop hk hd
  · cases h with
    | instr hpos hi =>
      exact ⟨instrWordWf_iff.mpr ⟨hpos, hi.opcode_mem, fun _ => hi.modeDigit_le_two⟩, hi.opcode,
        fun k hk => hi.digits k _ (List.getElem?_eq_getElem hk)⟩
  · rintro ⟨hwf, hop, hd⟩
    obtain ⟨hpos, -, -⟩ := instrWordWf_iff.mp hwf
    refine .instr hpos ⟨hop, fun k m hm => ?_⟩
    obtain ⟨hk, rfl⟩ := List.getElem?_eq_some_iff.mp hm
    exact hd k hk
  · cases h with
    | instr _ hi => exact hi.opcode ▸ i.length_eq

/-- Settles O3: the class of a word looks at no other digit (`Decodes.congr_fields`); the examples by evaluation. -/
theorem unusedDigitsAreIgnored : Obligations.UnusedDigitsAreIgnored := by
  refine ⟨fun raw raw' hpos hpos' hop hd => ?_, by decide⟩
  exact decode_eq_iff_decodes.mpr ((decodes_decode raw).congr_fields hpos hpos' hop hd)

/-- Settles O4: each word by evaluation. -/
theorem workedDecodes : Obligations.WorkedDecodes := by
  unfold Obligations.WorkedDecodes
  decide

end Sys2Proof
end

section
/-! SUPPORT. Mode 1 on a destination (spec/30_encoding.md R89): the resolver's rule, then the shapes that use it. -/

namespace Sys2Proof.Machine

/-- R89, R112: the resolver names the same address, or stops alike. -/
theorem writeAddr_immediate (s : State) (k : Nat) : writeAddr s k .immediate = writeAddr s k .position := rfl

theorem storeBinary_immediate (f : Word → Word → Word) (m1 m2 : AddrMode) (s : State) :
    storeBinary f m1 m2 .immediate s = storeBinary f m1 m2 .position s := by
  simp only [storeBinary, writeAddr_immediate]

theorem inputTo_immediate (s : State) : inputTo .immediate s = inputTo .position s := by
  simp only [inputTo, writeAddr_immediate]

/-- Settles O12: ADD, MUL, LT and EQ are `storeBinary`, and IN is `inputTo`; the words by evaluation. -/
theorem immediateDestinationActsAsPosition : Obligations.ImmediateDestinationActsAsPosition := by
  intro s m1 m2
  have hstore (f : Word → Word → Word) :
      settle s (storeBinary f m1 m2 .immediate s) = settle s (storeBinary f m1 m2 .position s) :=
    congrArg (settle s) (storeBinary_immediate f m1 m2 s)
  exact ⟨hstore aluAdd, hstore aluMul, hstore cmpLt, hstore cmpEq, congrArg (settle s) (inputTo_immediate s),
    by decide, by decide⟩

end Sys2Proof.Machine
end

section
/-! SUPPORT. The operand resolver (spec/40_operand_resolver.md R110 to R112) by the properties of Safety.lean: the value or
address it answers in each mode, and the address it stops at. -/

namespace Sys2Proof.Machine

/-! ### A bind by its two parts -/

theorem except_bind_ok_iff {ε α β : Type} {x : Except ε α} {f : α → Except ε β} {b : β} :
    (x >>= f) = .ok b ↔ ∃ a, x = .ok a ∧ f a = .ok b :=
  ⟨except_bind_ok, by rintro ⟨a, rfl, h⟩; exact h⟩

theorem except_bind_error_iff {ε α β : Type} {x : Except ε α} {f : α → Except ε β} {e : ε} :
    (x >>= f) = .error e ↔ x = .error e ∨ ∃ a, x = .ok a ∧ f a = .error e := by
  refine ⟨except_bind_error, ?_⟩
  rintro (rfl | ⟨a, rfl, h⟩)
  · rfl
  · exact h

/-! ### The two stops of a read, by the address they name -/

variable {s : State} {k : Nat} {m : AddrMode} {x y : Word}

theorem memRead_memoryFault_iff : memRead s y = .error (.raise .memoryFault x) ↔ x = y ∧ s.Absent x := by
  rw [memRead_raise_iff, and_iff_right rfl]
  exact and_congr_right (by rintro rfl; rfl)

theorem memRead_negativeAddress_iff :
    memRead s y = .error (.stuck (.negativeAddress x)) ↔ x = y ∧ s.Forbidden x := by
  rw [memRead_stuck_iff, Fault.negativeAddress.injEq]
  exact and_congr_right (by rintro rfl; rfl)

/-- R52, R55: an answer that stops only as reads do is described by where it raises MemoryFault and where it is refused. -/
theorem stops_iff_of_ofRead {r : Except Stop Word} {absent forbidden : Word → Prop}
    (hr : ∀ e, r = .error e → e.ofRead)
    (ha : ∀ x, r = .error (.raise .memoryFault x) ↔ absent x)
    (hf : ∀ x, r = .error (.stuck (.negativeAddress x)) ↔ forbidden x) :
    (∀ q x, r = .error (.raise q x) ↔ q = .memoryFault ∧ absent x) ∧
    (∀ f, r = .error (.stuck f) ↔ ∃ x, f = .negativeAddress x ∧ forbidden x) := by
  refine ⟨fun q x => ⟨fun h => ?_, ?_⟩, fun f => ⟨fun h => ?_, ?_⟩⟩
  · obtain ⟨_, e⟩ | ⟨_, e⟩ := hr _ h <;> cases e
    exact ⟨rfl, (ha x).mp h⟩
  · rintro ⟨rfl, h⟩
    exact (ha x).mpr h
  · obtain ⟨a, e⟩ | ⟨_, e⟩ := hr _ h <;> cases e
    exact ⟨a, rfl, (hf a).mp h⟩
  · rintro ⟨x, rfl, h⟩
    exact (hf x).mpr h

/-! ### `ReadVal` and `WriteAddr`: the operand word, then what its mode makes of it -/

theorem readVal_ok_iff {v : Word} : readVal s k m = .ok v ↔ ReadsAs s k m v := by
  refine ⟨readsAs_of_readVal_ok, ?_⟩
  rintro ⟨w, hw, h⟩
  refine except_bind_ok_iff.mpr ⟨w, memRead_ok_iff.mpr hw, ?_⟩
  cases m with
  | position => exact memRead_ok_iff.mpr h
  | immediate => exact congrArg Except.ok h.symm
  | relative => exact memRead_ok_iff.mpr h

/-- R111: a stop `e` that a read has exactly at the address `x`, when `P` holds there, `ReadVal` has exactly when it accesses
`x` so: for its operand word, or for the cell that the word names. -/
theorem readVal_error_iff {P : State → Word → Prop} {e : Stop}
    (hread : ∀ y, memRead s y = .error e ↔ x = y ∧ P s x) :
    readVal s k m = .error e ↔ ReadStopsAt P s k m x := by
  refine except_bind_error_iff.trans
    (or_congr (hread _) (exists_congr fun w => and_congr memRead_ok_iff ?_))
  cases m with
  | position => exact hread w
  | immediate => exact iff_of_false (fun h => by cases h) id
  | relative => exact hread _

theorem writeAddr_ok_iff {d : Word} : writeAddr s k m = .ok d ↔ DestIs s k m d := by
  have hok (a : Word) : (Except.ok a : Except Stop Word) = .ok d ↔ d = a := by rw [Except.ok.injEq, eq_comm]
  refine except_bind_ok_iff.trans (exists_congr fun w => and_congr memRead_ok_iff ?_)
  cases m <;> exact hok _

/-- R112: `WriteAddr` has such a stop at its operand word only, whatever the mode. -/
theorem writeAddr_error_iff {P : State → Word → Prop} {e : Stop}
    (hread : ∀ y, memRead s y = .error e ↔ x = y ∧ P s x) :
    writeAddr s k m = .error e ↔ DestStopsAt P s k x := by
  refine except_bind_error_iff.trans ((or_iff_left ?_).trans (hread _))
  rintro ⟨w, -, h⟩
  cases m <;> cases h

/-! ### The claims -/

/-- Settles O10: the value by `readVal_ok_iff`; each of the two stops of a read by `readVal_error_iff`. -/
theorem readOperandByMode : Obligations.ReadOperandByMode :=
  fun _ _ _ => ⟨fun _ => readVal_ok_iff, stops_iff_of_ofRead (fun _ => readVal_ofRead)
    (fun _ => readVal_error_iff fun _ => memRead_memoryFault_iff)
    (fun _ => readVal_error_iff fun _ => memRead_negativeAddress_iff)⟩

/-- Settles O11: the address by `writeAddr_ok_iff`; each of the two stops of a read by `writeAddr_error_iff`. -/
theorem destinationAddressByMode : Obligations.DestinationAddressByMode :=
  fun _ _ _ => ⟨fun _ => writeAddr_ok_iff, stops_iff_of_ofRead (fun _ => writeAddr_ofRead)
    (fun _ => writeAddr_error_iff fun _ => memRead_memoryFault_iff)
    (fun _ => writeAddr_error_iff fun _ => memRead_negativeAddress_iff)⟩

end Sys2Proof.Machine
end

section
/-! SUPPORT. The arithmetic of Words (spec/41_arithmetic.md R132, R133): the signed value of `wrap64`, and the two's-complement
operations that the sums, the products and the addresses are. -/

namespace Sys2Proof

/-- R6: the signed value of `wrap64 z` is the integer of the Word range that is congruent to `z`. -/
theorem toInt_wrap64_of_dvd {y z : Int} (hlow : -2 ^ 63 ≤ y) (hhigh : y < 2 ^ 63) (h : 2 ^ 64 ∣ y - z) :
    (wrap64 z).toInt = y := by
  rw [wrap64, BitVec.toInt_ofInt, Int.bmod_eq_iff (by decide)]
  omega

theorem toInt_wrap64 {z : Int} (hlow : -2 ^ 63 ≤ z) (hhigh : z < 2 ^ 63) : (wrap64 z).toInt = z :=
  toInt_wrap64_of_dvd hlow hhigh (by omega)

theorem dvd_toInt_wrap64_sub (z : Int) : 2 ^ 64 ∣ (wrap64 z).toInt - z := by
  rw [wrap64, BitVec.toInt_ofInt]
  exact Int.dvd_bmod_sub_self

end Sys2Proof

namespace Sys2Proof.Machine

/-- R132: the ordinary two's-complement sum. -/
theorem aluAdd_eq_add (a b : Word) : aluAdd a b = a + b := by
  rw [aluAdd, wrap64, BitVec.ofInt_add, BitVec.ofInt_toInt, BitVec.ofInt_toInt]

/-- R133: the low 64 bits of the product. -/
theorem aluMul_eq_mul (a b : Word) : aluMul a b = a * b := by
  rw [aluMul, wrap64, BitVec.ofInt_mul, BitVec.ofInt_toInt, BitVec.ofInt_toInt]

theorem addrPlus_eq_add (addr : Word) (k : Nat) : addrPlus addr k = addr + BitVec.ofNat 64 k := by
  rw [addrPlus, wrap64, BitVec.ofInt_add, BitVec.ofInt_toInt, BitVec.ofInt_natCast]

variable {s : State} {k : Nat} {m : AddrMode} {a w : Word}

/-! ### Where addresses and the base are sums -/

theorem operandWord_eq (s : State) (k : Nat) : operandWord s k = memRead s (s.ip + BitVec.ofNat 64 k) := by
  rw [operandWord, addrPlus_eq_add]

theorem readVal_relative (h : operandWord s k = .ok w) : readVal s k .relative = memRead s (s.rb + w) := by
  rw [readVal, h, except_ok_bind, aluAdd_eq_add]

theorem writeAddr_relative (h : operandWord s k = .ok w) : writeAddr s k .relative = .ok (s.rb + w) := by
  rw [writeAddr, h, except_ok_bind, aluAdd_eq_add]

/-- R170: where its operand resolves, ARB completes. -/
theorem exec_arb_of_readVal (h : readVal s 1 m = .ok a) :
    exec (.arb m) s = .next ((s.setRb (aluAdd s.rb a)).advance 2) := by
  have hbase : adjustBase m s = .ok (.proceed, (s.setRb (aluAdd s.rb a)).advance 2) := by
    rw [adjustBase, h, except_ok_bind]
  exact congrArg (settle s) hbase

/-! ### The claims -/

/-- Settles O23: the exact sum, or the exact sum less or plus 2^64, is the Word congruent to it (`toInt_wrap64_of_dvd`); the
base and the addresses are such sums; the examples by evaluation. -/
theorem additionLaw : Obligations.AdditionLaw := by
  refine ⟨fun a b => ⟨toInt_wrap64, fun h => ?_, fun h => ?_, aluAdd_eq_add a b⟩,
    fun s k => ⟨addrPlus_eq_add s.ip k, operandWord_eq s k, fun w h => ⟨readVal_relative h, writeAddr_relative h⟩⟩,
    fun s m a h => ⟨_, exec_arb_of_readVal h, aluAdd_eq_add s.rb a⟩, by decide⟩
  · have ha := a.toInt_lt
    have hb := b.toInt_lt
    exact toInt_wrap64_of_dvd (by omega) (by omega) (by omega)
  · have ha := a.le_toInt
    have hb := b.le_toInt
    exact toInt_wrap64_of_dvd (by omega) (by omega) (by omega)

/-- Settles O24: the product is the Word congruent to the exact one; the examples by evaluation. -/
theorem multiplicationLaw : Obligations.MultiplicationLaw :=
  ⟨fun a b => ⟨dvd_toInt_wrap64_sub _, toInt_wrap64, aluMul_eq_mul a b⟩, by decide⟩

end Sys2Proof.Machine
end

section
/-! SUPPORT. The whole rule of ADD, MUL, LT and EQ (spec/41_arithmetic.md R130, R131; spec/44_compare.md R160, R161), proved
once for the shape they share: the instruction word, the completion, and the stops in the order of the operands. -/

namespace Sys2Proof.Machine

/-! ### The instruction word -/

/-- R93: the number an instruction word is. -/
theorem encode_toNat (i : Instr) : (encode i).toNat = i.opcode + 100 * modeDigits i.modes := by
  obtain ⟨-, hop, hmodes⟩ := encodedFields i
  rw [← hop, ← hmodes, Nat.mod_add_div]

theorem BinaryOf.encode_toNat {i : Instr} {f : Word → Word → Word} {m1 m2 m3 : AddrMode} (hi : BinaryOf i f m1 m2 m3) :
    (encode i).toNat = i.opcode + 100 * m1.digit + 1000 * m2.digit + 10000 * m3.digit := by
  have hmodes : i.modes = [m1, m2, m3] := by cases hi <;> rfl
  simp only [Machine.encode_toNat, hmodes, modeDigits]
  omega

/-! ### The stops of the resolver, by their address -/

section Stops

variable {s : State} {k : Nat} {m : AddrMode} {x : Word}

theorem readVal_absent (h : ReadStopsAt State.Absent s k m x) : readVal s k m = .error (.raise .memoryFault x) :=
  (readVal_error_iff fun _ => memRead_memoryFault_iff).mpr h

theorem readVal_forbidden (h : ReadStopsAt State.Forbidden s k m x) :
    readVal s k m = .error (.stuck (.negativeAddress x)) :=
  (readVal_error_iff fun _ => memRead_negativeAddress_iff).mpr h

theorem writeAddr_absent (h : DestStopsAt State.Absent s k x) : writeAddr s k m = .error (.raise .memoryFault x) :=
  (writeAddr_error_iff fun _ => memRead_memoryFault_iff).mpr h

theorem writeAddr_forbidden (h : DestStopsAt State.Forbidden s k x) :
    writeAddr s k m = .error (.stuck (.negativeAddress x)) :=
  (writeAddr_error_iff fun _ => memRead_negativeAddress_iff).mpr h

end Stops

/-! ### The sub-operations in order: the first that stops is the answer -/

section Order

variable {f : Word → Word → Word} {m1 m2 m3 : AddrMode} {s t : State} {a b d : Word} {e : Stop}

theorem storeBinary_stop_first (h : readVal s 1 m1 = .error e) : storeBinary f m1 m2 m3 s = .error e := by
  simp [storeBinary, h]

theorem storeBinary_stop_second (ha : ReadsAs s 1 m1 a) (h : readVal s 2 m2 = .error e) :
    storeBinary f m1 m2 m3 s = .error e := by
  simp [storeBinary, readVal_ok_iff.mpr ha, h]

theorem storeBinary_stop_dest (ha : ReadsAs s 1 m1 a) (hb : ReadsAs s 2 m2 b) (h : writeAddr s 3 m3 = .error e) :
    storeBinary f m1 m2 m3 s = .error e := by
  simp [storeBinary, readVal_ok_iff.mpr ha, readVal_ok_iff.mpr hb, h]

theorem storeBinary_of_resolved (ha : ReadsAs s 1 m1 a) (hb : ReadsAs s 2 m2 b) (hd : DestIs s 3 m3 d) :
    storeBinary f m1 m2 m3 s = memWrite s d (f a b) >>= fun t => .ok (.proceed, t.advance 4) := by
  simp [storeBinary, readVal_ok_iff.mpr ha, readVal_ok_iff.mpr hb, writeAddr_ok_iff.mpr hd]

theorem storeBinary_stop_write (ha : ReadsAs s 1 m1 a) (hb : ReadsAs s 2 m2 b) (hd : DestIs s 3 m3 d)
    (h : memWrite s d (f a b) = .error e) : storeBinary f m1 m2 m3 s = .error e := by
  rw [storeBinary_of_resolved ha hb hd, h, except_error_bind]

theorem storeBinary_completes (ha : ReadsAs s 1 m1 a) (hb : ReadsAs s 2 m2 b) (hd : DestIs s 3 m3 d)
    (h : memWrite s d (f a b) = .ok t) : storeBinary f m1 m2 m3 s = .ok (.proceed, t.advance 4) := by
  rw [storeBinary_of_resolved ha hb hd, h, except_ok_bind]

end Order

/-- R53, R23: a store and an advance change one cell, `ip` and nothing else. -/
theorem storedAndAdvanced_store_advance (s : State) (d v : Word) (n : Nat) :
    StoredAndAdvanced s ((s.setMem (s.mem.store d.toNat v)).advance n) d v n :=
  ⟨s.cell_store_self d v, fun _ hx => s.cell_store_of_ne v hx, rfl⟩

/-! ### The rule -/

/-- R130, R131, R160, R161: every instruction of this shape follows the rule. -/
theorem binaryRule {mk : AddrMode → AddrMode → AddrMode → Instr} {op : Nat} {f : Word → Word → Word}
    (hmk : ∀ m1 m2 m3, BinaryOf (mk m1 m2 m3) f m1 m2 m3) (hop : ∀ m1 m2 m3, (mk m1 m2 m3).opcode = op) :
    BinaryRule mk op f := by
  intro s m1 m2 m3
  have hexec {r : Except Stop (Completion × State)} (h : storeBinary f m1 m2 m3 s = r) :
      exec (mk m1 m2 m3) s = settle s r := h ▸ exec_binary (hmk m1 m2 m3) s
  refine ⟨hop m1 m2 m3 ▸ (hmk m1 m2 m3).encode_toNat, ?completes, ?absent1, ?absent2, ?absent3, ?capacity, ?forbidden1,
    ?forbidden2, ?forbidden3, ?forbiddenDest⟩
  case completes =>
    exact fun a b d ha hb hd hw => ⟨_, hexec (storeBinary_completes ha hb hd (memWrite_of_writable _ hw)),
      storedAndAdvanced_store_advance s d (f a b) 4⟩
  case absent1 => exact fun x h => hexec (storeBinary_stop_first (readVal_absent h))
  case absent2 => exact fun a x ha h => hexec (storeBinary_stop_second ha (readVal_absent h))
  case absent3 => exact fun a b x ha hb h => hexec (storeBinary_stop_dest ha hb (writeAddr_absent h))
  case capacity =>
    exact fun a b d ha hb hd h => hexec (storeBinary_stop_write ha hb hd (memWrite_of_overCapacity _ h))
  case forbidden1 => exact fun x h => hexec (storeBinary_stop_first (readVal_forbidden h))
  case forbidden2 => exact fun a x ha h => hexec (storeBinary_stop_second ha (readVal_forbidden h))
  case forbidden3 => exact fun a b x ha hb h => hexec (storeBinary_stop_dest ha hb (writeAddr_forbidden h))
  case forbiddenDest =>
    exact fun a b d ha hb hd h => hexec (storeBinary_stop_write ha hb hd (memWrite_of_forbidden _ h))

/-- Settles O13: ADD has the shape, with the wrapped sum. -/
theorem addRule : Obligations.AddRule := binaryRule .add fun _ _ _ => rfl

/-- Settles O14: MUL has the shape, with the wrapped product. -/
theorem mulRule : Obligations.MulRule := binaryRule .mul fun _ _ _ => rfl

end Sys2Proof.Machine
end

section
/-! SUPPORT. The whole rules of IN and OUT (spec/42_input_output.md R140, R141). The rule of one read operand, which OUT
shares with ARB (R170), is proved once for that shape. -/

namespace Sys2Proof.Machine

/-- R81, R93: the instruction word of one operand. -/
theorem encode_toNat_of_modes_eq_singleton {i : Instr} {m : AddrMode} (h : i.modes = [m]) :
    (encode i).toNat = i.opcode + 100 * m.digit := by
  simp only [encode_toNat, h, modeDigits]
  omega

/-! ### One read operand -/

/-- R141, R170: an instruction that reads one operand, stops where the read stops, and goes on by `body` with its value. -/
theorem unaryRule {mk : AddrMode → Instr} {op : Nat} {effect : State → Word → State}
    (body : State → Word → Except Stop (Completion × State))
    (hmodes : ∀ m, (mk m).modes = [m]) (hop : ∀ m, (mk m).opcode = op)
    (hexec : ∀ m s, exec (mk m) s = settle s (readVal s 1 m >>= body s))
    (heffect : ∀ s a, settle s (body s a) = .next (effect s a)) : UnaryRule mk op effect := by
  intro s m1
  have hstop {e : Stop} (h : readVal s 1 m1 = .error e) : exec (mk m1) s = settle s (.error e) := by
    rw [hexec, h, except_error_bind]
  refine ⟨hop m1 ▸ encode_toNat_of_modes_eq_singleton (hmodes m1), ?completes, ?absent, ?forbidden⟩
  case completes =>
    intro a ha
    rw [hexec, readVal_ok_iff.mpr ha, except_ok_bind, heffect]
  case absent => exact fun x h => hstop (readVal_absent h)
  case forbidden => exact fun x h => hstop (readVal_forbidden h)

/-- Settles O18: OUT has the shape; its value goes to the slot, `ip` past it, and the call yields. -/
theorem outputRule : Obligations.OutputRule :=
  unaryRule (fun s a => .ok (.yield, (s.setOutput a).advance 2)) (fun _ => rfl) (fun _ => rfl) (fun _ _ => rfl)
    (fun _ _ => rfl)

/-! ### A write does not look at the input queue -/

section Queue

variable {s : State} {q : List Word} {x : Word}

@[simp] theorem State.writable_setInq : (s.setInq q).Writable x ↔ s.Writable x := Iff.rfl

@[simp] theorem State.overCapacity_setInq : (s.setInq q).OverCapacity x ↔ s.OverCapacity x := Iff.rfl

@[simp] theorem State.forbidden_setInq : (s.setInq q).Forbidden x ↔ s.Forbidden x := Iff.rfl

end Queue

/-! ### The sub-operations of IN in order: the address, the queue, the write -/

section Order

variable {m : AddrMode} {s t : State} {d v : Word} {rest : List Word} {e : Stop}

theorem inputTo_stop_dest (h : writeAddr s 1 m = .error e) : inputTo m s = .error e := by
  simp [inputTo, h]

theorem inputTo_stop_queue (hd : DestIs s 1 m d) (hq : s.inq = []) :
    inputTo m s = .error (.raise .inputUnderflow s.ip) := by
  simp [inputTo, writeAddr_ok_iff.mpr hd, hq]

theorem inputTo_of_dequeued (hd : DestIs s 1 m d) (hq : s.inq = v :: rest) :
    inputTo m s = memWrite (s.setInq rest) d v >>= fun t => .ok (.proceed, t.advance 2) := by
  simp [inputTo, writeAddr_ok_iff.mpr hd, hq]

theorem inputTo_stop_write (hd : DestIs s 1 m d) (hq : s.inq = v :: rest)
    (h : memWrite (s.setInq rest) d v = .error e) : inputTo m s = .error e := by
  rw [inputTo_of_dequeued hd hq, h, except_error_bind]

theorem inputTo_completes (hd : DestIs s 1 m d) (hq : s.inq = v :: rest)
    (h : memWrite (s.setInq rest) d v = .ok t) : inputTo m s = .ok (.proceed, t.advance 2) := by
  rw [inputTo_of_dequeued hd hq, h, except_ok_bind]

end Order

/-- Settles O17: each clause is the first of IN's sub-operations that stops, or its completion. -/
theorem inputRule : Obligations.InputRule := by
  intro s m1
  have hexec {r : Except Stop (Completion × State)} (h : inputTo m1 s = r) : exec (.inp m1) s = settle s r :=
    congrArg (settle s) h
  refine ⟨encode_toNat_of_modes_eq_singleton rfl, ?completes, ?absent, ?underflow, ?capacity, ?forbidden,
    ?forbiddenDest⟩
  case completes =>
    exact fun d v rest hd hq hw =>
      ⟨_, hexec (inputTo_completes hd hq (memWrite_of_writable v (State.writable_setInq.mpr hw))),
        storedAndAdvanced_store_advance (s.setInq rest) d v 2⟩
  case absent => exact fun x h => hexec (inputTo_stop_dest (writeAddr_absent h))
  case underflow => exact fun d hd hq => hexec (inputTo_stop_queue hd hq)
  case capacity =>
    exact fun d v rest hd hq h =>
      hexec (inputTo_stop_write hd hq (memWrite_of_overCapacity v (State.overCapacity_setInq.mpr h)))
  case forbidden => exact fun x h => hexec (inputTo_stop_dest (writeAddr_forbidden h))
  case forbiddenDest =>
    exact fun d v rest hd hq h =>
      hexec (inputTo_stop_write hd hq (memWrite_of_forbidden v (State.forbidden_setInq.mpr h)))

end Sys2Proof.Machine
end

section
/-! SUPPORT. The whole rule of JNZ and JZ (spec/43_jumps.md R150, R151), proved once for the shape they share: both operands
are resolved, and the condition then decides `ip` alone. -/

namespace Sys2Proof.Machine

/-- R150: a Word is true exactly when it is not 0. -/
theorem wordTrue_iff {a : Word} : wordTrue a = true ↔ a.toInt ≠ 0 := decide_eq_true_iff

theorem JumpOf.encode_toNat {i : Instr} {c : Word → Bool} {m1 m2 : AddrMode} (hi : JumpOf i c m1 m2) :
    (encode i).toNat = i.opcode + 100 * m1.digit + 1000 * m2.digit := by
  have hmodes : i.modes = [m1, m2] := by cases hi <;> rfl
  simp only [Machine.encode_toNat, hmodes, modeDigits]
  omega

/-! ### The sub-operations in order: the first that stops is the answer -/

section Order

variable {c : Word → Bool} {m1 m2 : AddrMode} {s : State} {a t : Word} {e : Stop}

theorem jumpIf_stop_first (h : readVal s 1 m1 = .error e) : jumpIf c m1 m2 s = .error e := by
  simp [jumpIf, h]

theorem jumpIf_stop_target (ha : ReadsAs s 1 m1 a) (h : readVal s 2 m2 = .error e) : jumpIf c m1 m2 s = .error e := by
  simp [jumpIf, readVal_ok_iff.mpr ha, h]

theorem jumpIf_taken (ha : ReadsAs s 1 m1 a) (ht : ReadsAs s 2 m2 t) (h : c a = true) :
    jumpIf c m1 m2 s = .ok (.proceed, s.setIp t) := by
  simp [jumpIf, readVal_ok_iff.mpr ha, readVal_ok_iff.mpr ht, h]

theorem jumpIf_not_taken (ha : ReadsAs s 1 m1 a) (ht : ReadsAs s 2 m2 t) (h : ¬ c a = true) :
    jumpIf c m1 m2 s = .ok (.proceed, s.advance 3) := by
  simp [jumpIf, State.advance, readVal_ok_iff.mpr ha, readVal_ok_iff.mpr ht, h]

end Order

/-! ### The rule -/

/-- R150, R151: every jump follows the rule, with any property of Words that its condition decides. -/
theorem jumpRule {mk : AddrMode → AddrMode → Instr} {op : Nat} {c : Word → Bool} {taken : Word → Prop}
    (hmk : ∀ m1 m2, JumpOf (mk m1 m2) c m1 m2) (hop : ∀ m1 m2, (mk m1 m2).opcode = op)
    (htaken : ∀ a, c a = true ↔ taken a) : JumpRule mk op taken := by
  intro s m1 m2
  have hexec {r : Except Stop (Completion × State)} (h : jumpIf c m1 m2 s = r) : exec (mk m1 m2) s = settle s r :=
    h ▸ exec_jump (hmk m1 m2) s
  refine ⟨hop m1 m2 ▸ (hmk m1 m2).encode_toNat, ?taken, ?notTaken, ?absent1, ?absent2, ?forbidden1, ?forbidden2⟩
  case taken => exact fun a t ha ht h => hexec (jumpIf_taken ha ht ((htaken a).mpr h))
  case notTaken => exact fun a t ha ht h => hexec (jumpIf_not_taken ha ht (mt (htaken a).mp h))
  case absent1 => exact fun x h => hexec (jumpIf_stop_first (readVal_absent h))
  case absent2 => exact fun a x ha h => hexec (jumpIf_stop_target ha (readVal_absent h))
  case forbidden1 => exact fun x h => hexec (jumpIf_stop_first (readVal_forbidden h))
  case forbidden2 => exact fun a x ha h => hexec (jumpIf_stop_target ha (readVal_forbidden h))

/-- Settles O19: JNZ has the shape, and its condition is that the Word is not 0. -/
theorem jumpIfTrueRule : Obligations.JumpIfTrueRule :=
  jumpRule .jnz (fun _ _ => rfl) fun _ => wordTrue_iff

/-- Settles O20: JZ has the shape, and its condition, the contrary of JNZ's, is that the Word is 0. -/
theorem jumpIfFalseRule : Obligations.JumpIfFalseRule :=
  jumpRule .jz (fun _ _ => rfl) fun a => by rw [Bool.not_eq_true', ← Bool.not_eq_true, wordTrue_iff, not_not]

end Sys2Proof.Machine
end

section
/-! SUPPORT. The comparisons (spec/44_compare.md R160 to R162): the two functions by what they answer, the law, and the whole
rules of LT and EQ, which are of the shape of ADD and MUL. -/

namespace Sys2Proof.Machine

/-! ### What a comparison answers -/

/-- R162: the Word of a condition. -/
theorem boolWord_decide (p : Prop) [Decidable p] : boolWord (decide p) = if p then 1 else 0 := by
  simp only [boolWord, decide_eq_true_eq]

/-- R162: the Word 1 where the condition holds, the Word 0 where it does not, and nothing else. -/
theorem boolWord_decide_cases (p : Prop) [Decidable p] :
    boolWord (decide p) = 1 ∧ p ∨ boolWord (decide p) = 0 ∧ ¬ p := by
  rw [boolWord_decide]
  by_cases h : p
  · exact .inl ⟨if_pos h, h⟩
  · exact .inr ⟨if_neg h, h⟩

theorem cmpLt_eq_ite (a b : Word) : cmpLt a b = if a.toInt < b.toInt then 1 else 0 := boolWord_decide _

/-- R161: equal signed values are equal in all 64 bits. -/
theorem cmpEq_eq_ite (a b : Word) : cmpEq a b = if a = b then 1 else 0 := by
  simp only [cmpEq, BitVec.toInt_inj, boolWord_decide]

/-! ### The claims -/

/-- Settles O25: each comparison is the Word of its condition; the extremes by evaluation. -/
theorem comparisonLaw : Obligations.ComparisonLaw := by
  refine ⟨fun a b => ⟨?lt, ?eq⟩, by decide, by decide⟩
  case lt => simpa only [cmpLt, not_lt] using boolWord_decide_cases (a.toInt < b.toInt)
  case eq => simpa only [cmpEq, BitVec.toInt_inj] using boolWord_decide_cases (a.toInt = b.toInt)

/-- Settles O15: LT has the shape, with the signed comparison. -/
theorem lessThanRule : Obligations.LessThanRule :=
  binaryRule (fun m1 m2 m3 => funext₂ cmpLt_eq_ite ▸ .lt m1 m2 m3) fun _ _ _ => rfl

/-- Settles O16: EQ has the shape, with the equality of all bits. -/
theorem equalsRule : Obligations.EqualsRule :=
  binaryRule (fun m1 m2 m3 => funext₂ cmpEq_eq_ite ▸ .eq m1 m2 m3) fun _ _ _ => rfl

end Sys2Proof.Machine
end

section
/-! SUPPORT. The whole rules of ARB and HLT (spec/45_base_and_halt.md R170, R171): ARB has the shape of one read operand, HLT
has no operand and ends the call. -/

namespace Sys2Proof.Machine

/-- R171: in every state HLT ends the call, and it stops nowhere. -/
theorem exec_hlt (s : State) : exec .hlt s = .next s.haltCall := rfl

/-- Settles O21: ARB has the shape; its value is added to `rb`, `ip` goes past it, and the call goes on. -/
theorem adjustBaseRule : Obligations.AdjustBaseRule :=
  unaryRule (fun s a => .ok (.proceed, (s.setRb (aluAdd s.rb a)).advance 2)) (fun _ => rfl) (fun _ => rfl)
    (fun _ _ => rfl) (fun _ _ => rfl)

/-- Settles O22: the instruction word has no mode digit, and `State.haltCall` is the state R171 describes. -/
theorem haltRule : Obligations.HaltRule := ⟨encode_toNat .hlt, exec_hlt⟩

end Sys2Proof.Machine
end

section
/-! SUPPORT. The execution controller (spec/46_execution_controller.md): what `step` runs while a call is in progress and
what it answers each transaction between calls, once per kind; then the claims about one step and one transaction. -/

namespace Sys2Proof.Machine

variable {s t : State}

/-! ### A step of a call -/

/-- R180: a step of a call is the fetched instruction, and nothing more. -/
theorem step_of_fetch_ok {i : Instr} (hb : s.busy = true) (hr : s.es = .running) (hf : fetch s = .ok i) :
    step s = exec i s := by
  rw [step_busy hb hr, stepInstr, hf]

/-- Settles O34: the word at `ip` is fetched and decoded, and a step runs what was fetched. -/
theorem stepRunsDecodedInstruction : Obligations.StepRunsDecodedInstruction :=
  fun _ _ _ hb hr hraw hdec => step_of_fetch_ok hb hr (fetch_of_decode_ok hraw hdec)

/-! ### The instruction that `withFetchWord` places -/

theorem decode_of_decodeTableWord {nbits w : Nat} {i : Instr} (h : decodeTableWord nbits w = some i) :
    decode (tableCell nbits w 0) = .ok i := by
  unfold decodeTableWord at h
  split at h
  · cases h
    assumption
  · cases h

/-- R56: an address sum that does not go once round the address space is another address. -/
theorem addrPlus_ne_self (x : Word) {k : Nat} (hpos : 0 < k) (hlt : k < 2 ^ 64) : addrPlus x k ≠ x := by
  rw [addrPlus_eq_add]
  bv_omega

/-- The three cells placed after the first leave it alone. -/
theorem cell_withFetchWord_ip (s : State) (nbits w : Nat) :
    (s.withFetchWord nbits w).cell s.ip = some (tableCell nbits w 0) := by
  have hkey {k : Nat} (hpos : 0 < k) (hlt : k < 2 ^ 64) : s.ip.toNat ≠ (addrPlus s.ip k).toNat :=
    cell_key_ne (addrPlus_ne_self s.ip hpos hlt).symm
  simp only [State.cell, State.withFetchWord, placeInstruction]
  rw [Memory.lookup_store_of_ne _ _ (hkey (by decide) (by decide)),
    Memory.lookup_store_of_ne _ _ (hkey (by decide) (by decide)),
    Memory.lookup_store_of_ne _ _ (hkey (by decide) (by decide)), Memory.lookup_store_self]

/-- Settles O37: the first placed cell is the word at `ip`, and the machine is in a call. -/
theorem placedInstructionRunsNext : Obligations.PlacedInstructionRunsNext := by
  intro s nbits w i hdec hacc
  have hraw : (s.withFetchWord nbits w).Holds s.ip (tableCell nbits w 0) := ⟨hacc, cell_withFetchWord_ip s nbits w⟩
  exact step_of_fetch_ok rfl rfl (fetch_of_decode_ok hraw (decode_of_decodeTableWord hdec))

/-! ### What each transaction is answered -/

/-- R190: during a call. -/
theorem transact_busy (tr : Transaction) (hb : s.busy = true) : transact tr s = s.respond .refused := by
  simp [transact, hb]

theorem transact_construct (p : List Word) (hb : s.busy = false) : transact (.construct p) s =
    if programWf s.cfg p then (s.construct p).respond .constructed else s.respond .refused := by
  simp [transact, hb]

theorem transact_execute (q : List Word) (hb : s.busy = false) : transact (.execute q) s =
    if batchWf s.cfg q then s.startExecute q else s.respond .refused := by
  simp [transact, hb]

theorem transact_peek (x : PeekItem) (hb : s.busy = false) :
    transact (.peek x) s = s.respond (.peeked (s.peek x)) := by
  simp [transact, hb]

/-- D6: a batch over its bound, in a call or between calls. -/
theorem transact_execute_over {q : List Word} (hq : ¬ batchWf s.cfg q = true) :
    transact (.execute q) s = s.respond .refused := by
  simp [transact, hq]

/-- R183: from `Running` and `SuspendedOnOutput` an `Execute` starts a call. -/
theorem startExecute_open (q : List Word) (he : s.es = .running ∨ s.es = .suspendedOnOutput) :
    s.startExecute q = s.beginCall q := by
  rcases he with he | he <;> simp [State.startExecute, he]

/-- R186, R187: from `Halted` and `Faulted` it is answered at once. -/
theorem startExecute_terminal (q : List Word) (he : ¬ (s.es = .running ∨ s.es = .suspendedOnOutput)) :
    ∃ r, s.startExecute q = s.respond r := by
  unfold State.startExecute
  cases hes : s.es with
  | running | suspendedOnOutput => simp [hes] at he
  | halted => exact ⟨_, rfl⟩
  | faulted => cases s.fk <;> exact ⟨_, rfl⟩

/-- Settles O42: the batch is within its bound, so the call begins. -/
theorem executeStartsCall : Obligations.ExecuteStartsCall := by
  intro s q hb he hq
  rw [transact_execute q hb, if_pos (batchWf_iff.mpr hq), startExecute_open q he]
  rfl

/-- Settles O43: the refusal of `transact_busy` and that of `transact_execute_over` are a response and nothing else. -/
theorem refusedTransactionsHaveNoEffect : Obligations.RefusedTransactionsHaveNoEffect := by
  refine ⟨fun s tr hb => transact_busy tr hb, fun s q n hn hlen => transact_execute_over fun hq => ?_⟩
  exact absurd (batchWf_iff.mp hq n hn) (Nat.not_le.mpr hlen)

/-! ### The state machine of `es` -/

theorem hostMove_of_pending_nil (hp : s.pending = []) : hostMove s = s := by
  simp [hostMove, hp]

theorem hostMove_of_pending_cons {tr : Transaction} {rest : List Transaction} (hp : s.pending = tr :: rest) :
    hostMove s = transact tr { s with pending := rest } := by
  simp [hostMove, hp]

/-- R181, R183: a step of a call that begins at `Running` goes on there, or ends the call in one of three ways. -/
theorem call_step_transitions (hb : s.busy = true) (hr : s.es = .running) (h : step s = .next t) :
    t.busy = true ∧ t.es = .running ∨
    t.busy = false ∧ t.es = .suspendedOnOutput ∧ (∃ m, fetch s = .ok (.out m)) ∨
    t.busy = false ∧ t.es = .halted ∧ fetch s = .ok .hlt ∨
    t.busy = false ∧ t.es = .faulted ∧ ∃ k x, t = s.afterFault k x := by
  rcases call_step_cases hb h with ⟨i, hf, hc⟩ | ⟨k, x, rfl⟩
  · rcases hc.control_cases with
      ⟨⟨hes, -, -, hbusy, -⟩, -⟩ | ⟨⟨m, rfl⟩, hes, -, hidle, -⟩ | ⟨rfl, rfl⟩ | ⟨k, x, rfl⟩
    · exact .inl ⟨hbusy.trans hb, hes.trans hr⟩
    · exact .inr (.inl ⟨hidle, hes, m, hf⟩)
    · exact .inr (.inr (.inl ⟨rfl, rfl, hf⟩))
    · exact .inr (.inr (.inr ⟨rfl, rfl, k, x, rfl⟩))
  · exact .inr (.inr (.inr ⟨rfl, rfl, k, x, rfl⟩))

/-- R250: a `Construct` on an idle machine sets `Running` where its program is accepted. -/
theorem transact_construct_control (p : List Word) (hb : s.busy = false) :
    (transact (.construct p) s).busy = false ∧
    (transact (.construct p) s).es = if programWf s.cfg p then .running else s.es := by
  rw [transact_construct p hb]
  split <;> simp [hb]

/-- R183: an `Execute` on an idle machine starts a call where its batch is accepted and `es` is not terminal, and leaves
`es` alone otherwise. -/
theorem transact_execute_control (q : List Word) (hb : s.busy = false) :
    if batchWf s.cfg q = true ∧ (s.es = .running ∨ s.es = .suspendedOnOutput) then
      (transact (.execute q) s).busy = true ∧ (transact (.execute q) s).es = .running
    else (transact (.execute q) s).busy = false ∧ (transact (.execute q) s).es = s.es := by
  by_cases hq : batchWf s.cfg q = true
  · rw [transact_execute q hb, if_pos hq]
    by_cases he : s.es = .running ∨ s.es = .suspendedOnOutput
    · rw [if_pos ⟨hq, he⟩, startExecute_open q he]
      exact ⟨rfl, rfl⟩
    · obtain ⟨r, hr⟩ := startExecute_terminal q he
      rw [if_neg fun h => he h.2, hr]
      exact ⟨hb, rfl⟩
  · rw [if_neg fun h => hq h.1, transact_execute_over hq]
    exact ⟨hb, rfl⟩

/-- Settles O45: a step of a call by `call_step_transitions`; a step of an idle machine by its next transaction. -/
theorem executionStateTransitions : Obligations.ExecutionStateTransitions := by
  intro s t hinv h
  refine ⟨fun hb => ⟨hinv.callRunning hb, call_step_transitions hb (hinv.callRunning hb) h⟩, fun hb => ?_⟩
  rw [step_idle hb] at h
  cases h
  refine ⟨hostMove_of_pending_nil, fun p rest hp => ?construct, fun q rest hp => ?execute, fun x rest hp => ?peek⟩
  case construct =>
    rw [hostMove_of_pending_cons hp]
    exact transact_construct_control (s := { s with pending := rest }) p hb
  case execute =>
    rw [hostMove_of_pending_cons hp]
    exact transact_execute_control (s := { s with pending := rest }) q hb
  case peek =>
    rw [hostMove_of_pending_cons hp, transact_peek (s := { s with pending := rest }) x hb]
    exact ⟨hb, rfl⟩

end Sys2Proof.Machine
end

section
/-! SUPPORT. What the controller reports at the end of a call (spec/46_execution_controller.md R182 to R188): how a call
under fuel runs, the result its final state determines, and the terminal states. -/

namespace Sys2Proof.Machine

variable {s t : State} {r : CallResult}

/-! ### A call under fuel, from its first step -/

/-- R182: what holds of the state a call returns in, and before each of its steps, holds of the state it starts in. -/
theorem runCall_induction {motive : Nat → State → Prop} (idle : ∀ n, t.busy = false → motive n t)
    (step : ∀ n s u, s.busy = true → step s = .next u → runCall n u = some t → motive n u → motive (n + 1) s)
    {n : Nat} (h : runCall n s = some t) : motive n s := by
  have hidle {m : Nat} {u : State} (hb : u.busy = false) (hu : runCall m u = some t) : motive m u := by
    rw [runCall_idle m hb] at hu
    cases hu
    exact idle m hb
  induction n generalizing s with
  | zero =>
    cases hb : s.busy with
    | false => exact hidle hb h
    | true => simp [runCall, hb] at h
  | succ n ih =>
    cases hb : s.busy with
    | false => exact hidle hb h
    | true =>
      cases hs : Machine.step s with
      | next u =>
        rw [runCall_busy n hb hs] at h
        exact step n s u hb hs h (ih h)
      | fault | refused => simp [runCall, hb, hs] at h

/-- What every step of a call keeps holds where the call returns, and no call is in progress there. -/
theorem runCall_invariant {P : State → Prop} (hstep : ∀ u v, P u → u.busy = true → step u = .next v → P v)
    {n : Nat} (hs : P s) (h : runCall n s = some t) : P t ∧ t.busy = false :=
  runCall_induction (motive := fun _ s => P s → P t ∧ t.busy = false) (fun _ hb ht => ⟨ht, hb⟩)
    (fun _ s u hb hu _ ih hs => ih (hstep s u hs hb hu)) h hs

/-- What `execute` answers: the call returned, and its result is the last response. -/
theorem execute_eq_some {fuel : Nat} {q : List Word} (h : execute fuel q s = some (r, t)) :
    runCall fuel (transact (.execute q) s) = some t ∧ t.responses.getLast? = some (.returned r) := by
  unfold execute at h
  split at h
  · split at h
    · cases h
      exact ⟨‹_›, ‹_›⟩
    · cases h
  · cases h

/-- R182: a call in progress under fuel is at most that many steps of the machine. -/
theorem exists_run_of_runCall {n : Nat} (h : runCall n s = some t) :
    ∃ k ≤ n, Host.Core.run core k s = .next t := by
  refine runCall_induction (motive := fun n s => ∃ k ≤ n, Host.Core.run core k s = .next t) ?idle ?step h
  case idle => exact fun n _ => ⟨0, Nat.zero_le n, rfl⟩
  case step =>
    rintro n s u - hu - ⟨k, hk, hrun⟩
    exact ⟨k + 1, Nat.succ_le_succ hk, (core_run_next k hu).trans hrun⟩

/-- Settles O50: one step for the transaction, then those of `exists_run_of_runCall`. -/
theorem executeIsRepeatedStep : Obligations.ExecuteIsRepeatedStep := by
  intro fuel q s t r hb h
  obtain ⟨k, hk, hrun⟩ := exists_run_of_runCall (execute_eq_some h).1
  have hfirst : step { s with pending := .execute q :: s.pending } = .next (transact (.execute q) s) := step_idle hb
  exact ⟨k + 1, Nat.succ_le_succ hk, (core_run_next k hfirst).trans hrun⟩

/-! ### The result that a state determines -/

/-- R186, R187: the state is terminal, and `r` is the result that it answers every `Execute` with. -/
def State.TerminalWith (s : State) (r : CallResult) : Prop :=
  s.es = .halted ∧ r = .ok (if s.lov then some s.lo else none) true ∨
  s.es = .faulted ∧ ∃ k, s.fk = some k ∧ r = .fault k s.fi

/-- R182, R184: `r` is the result of a call that ended in this state: at an OUT, or in a terminal state. -/
def State.EndedWith (s : State) (r : CallResult) : Prop :=
  s.es = .suspendedOnOutput ∧ r = .ok (some s.lo) false ∨ s.TerminalWith r

theorem State.terminalWith_haltCall (s : State) : s.haltCall.TerminalWith (.ok s.value true) := .inl ⟨rfl, rfl⟩

theorem State.terminalWith_takeFault (s : State) (k : FaultKind) (x : Word) :
    (s.takeFault k x).TerminalWith (.fault k x) := .inr ⟨rfl, k, rfl, rfl⟩

/-- R186, R187: a terminal state answers an `Execute` at once, with its result. -/
theorem State.TerminalWith.startExecute (h : s.TerminalWith r) (q : List Word) :
    s.startExecute q = s.respond (.returned r) := by
  obtain ⟨he, rfl⟩ | ⟨he, k, hk, rfl⟩ := h
  · simp [State.startExecute, he, State.value]
  · simp [State.startExecute, he, hk]

/-- Between calls, where the last response returned a result, it is the one the state determines. -/
def State.ReportsItsEnd (s : State) : Prop :=
  s.busy = false → ∀ r, s.responses.getLast? = some (.returned r) → s.EndedWith r

theorem State.reportsItsEnd_of_busy (h : s.busy = true) : s.ReportsItsEnd := fun hb => by simp [h] at hb

theorem State.reportsItsEnd_of_returned {rs : List Response} (hlast : s.responses = rs ++ [.returned r])
    (h : s.EndedWith r) : s.ReportsItsEnd := by
  intro _ r' hr'
  rw [hlast, List.getLast?_concat] at hr'
  cases hr'
  exact h

/-- R182: an instruction of a call leaves it in progress, or ends it with the result that its state determines. -/
theorem ExecCase.reportsItsEnd {i : Instr} (hb : s.busy = true) (h : ExecCase i s t) : t.ReportsItsEnd := by
  cases h with
  | fault k x => exact State.reportsItsEnd_of_returned rfl (.inr (s.terminalWith_takeFault k x))
  | output => exact State.reportsItsEnd_of_returned rfl (.inl ⟨rfl, rfl⟩)
  | halt => exact State.reportsItsEnd_of_returned rfl (.inr s.terminalWith_haltCall)
  | binary | input | jump | base => exact State.reportsItsEnd_of_busy (by simpa using hb)

theorem call_step_reportsItsEnd (hb : s.busy = true) (h : step s = .next t) : t.ReportsItsEnd := by
  rcases call_step_cases hb h with ⟨i, -, hc⟩ | ⟨k, x, rfl⟩
  · exact hc.reportsItsEnd hb
  · exact State.reportsItsEnd_of_returned rfl (.inr (s.terminalWith_takeFault k x))

/-- R182, R186, R187: an `Execute` starts a call, is answered with the result of a terminal state, or is refused. -/
theorem TransactCase.reportsItsEnd {q : List Word} (h : TransactCase (.execute q) s t) : t.ReportsItsEnd := by
  cases h with
  | refused => exact fun _ r hr => by simp at hr
  | started => exact State.reportsItsEnd_of_busy rfl
  | halted _ _ he => exact State.reportsItsEnd_of_returned rfl (.inr (.inl ⟨he, rfl⟩))
  | faulted _ _ he hk => exact State.reportsItsEnd_of_returned rfl (.inr (.inr ⟨he, _, hk, rfl⟩))

/-- Settles O49: every step of the call keeps the invariant, which empties the queue, and leaves a state that reports its
end, so the last response is that report. -/
theorem resultMatchesFinalState : Obligations.ResultMatchesFinalState := by
  intro fuel q s t r hinv hb h
  obtain ⟨hrun, hlast⟩ := execute_eq_some h
  have hstart := transact_cases (.execute q) s
  obtain ⟨htinv, hidle⟩ := runCall_invariant (fun _ _ hu _ hv => hu.step hv) (hinv.transactCase hstart) hrun
  obtain ⟨hreport, -⟩ := runCall_invariant (fun _ _ _ hub hv => call_step_reportsItsEnd hub hv)
    hstart.reportsItsEnd hrun
  exact ⟨hidle, htinv.queueIdle hidle, hreport hidle r hlast⟩

/-! ### Terminal states -/

/-- R186, R187, D6: what a terminal state with the result `r` answers each transaction but a `Construct`. -/
def State.terminalAnswer (s : State) (r : CallResult) : Transaction → Response
  | .construct _ => .refused
  | .execute q => if batchWf s.cfg q then .returned r else .refused
  | .peek x => .peeked (s.peek x)

/-- R186, R187: the answer is all that such a transaction leaves. -/
theorem State.TerminalWith.transact {tr : Transaction} (h : s.TerminalWith r) (hb : s.busy = false)
    (htr : tr.isConstruct = false) : Machine.transact tr s = s.respond (s.terminalAnswer r tr) := by
  cases tr with
  | construct p => cases htr
  | execute q =>
    rw [transact_execute q hb, h.startExecute q, State.terminalAnswer]
    split <;> rfl
  | peek x => exact transact_peek x hb

/-- R219: through any number of steps a terminal state answers the host and changes in nothing else. -/
theorem State.TerminalWith.run (n : Nat) (h : s.TerminalWith r) (hb : s.busy = false)
    (hpend : ∀ tr ∈ s.pending, tr.isConstruct = false) :
    ∃ t, Host.Core.run core n s = .next t ∧ s.SameMachine t ∧ t.pending = s.pending.drop n ∧
      t.responses = s.responses ++ (s.pending.take n).map (s.terminalAnswer r) := by
  induction n generalizing s with
  | zero => exact ⟨s, rfl, rfl, rfl, by simp⟩
  | succ n ih =>
    rw [core_run_next n (step_idle hb)]
    cases hp : s.pending with
    | nil =>
      rw [hostMove_of_pending_nil hp]
      simpa [hp] using ih h hb hpend
    | cons tr rest =>
      rw [hp, List.forall_mem_cons] at hpend
      have htr : Machine.transact tr { s with pending := rest } =
          State.respond { s with pending := rest } (s.terminalAnswer r tr) :=
        State.TerminalWith.transact (s := { s with pending := rest }) h hb hpend.1
      rw [hostMove_of_pending_cons hp, htr]
      obtain ⟨t, hrun, hsame, hdrop, hresp⟩ :=
        ih (s := State.respond { s with pending := rest } (s.terminalAnswer r tr)) h hb hpend.2
      exact ⟨t, hrun, hsame, hdrop, hresp.trans (List.append_assoc ..)⟩

/-- Settles O48: a terminal state keeps to its answers through any number of steps. -/
theorem terminalStatesAreStable : Obligations.TerminalStatesAreStable :=
  fun n _ _ hb h hpend => State.TerminalWith.run n h hb hpend

end Sys2Proof.Machine
end

section
/-! SUPPORT. Inputs that a call has not taken when it returns (spec/46_execution_controller.md R185, R189): a machine with
more values at the end of its queue runs in lockstep with the one without them, and the end of the call discards them. -/

namespace Sys2Proof.Machine

variable {s t : State} {e : List Word}

/-! ### More values at the end of the queue -/

/-- The machine given these values after its own. -/
def State.addInputs (e : List Word) (s : State) : State := s.setInq (s.inq ++ e)

/-- R28: the values are there while a call is in progress, and discarded when it returns. -/
def State.withUnseen (e : List Word) (s : State) : State := if s.busy then s.addInputs e else s

theorem State.withUnseen_of_busy (h : s.busy = true) : s.withUnseen e = s.addInputs e := by simp [State.withUnseen, h]

theorem State.withUnseen_of_idle (h : s.busy = false) : s.withUnseen e = s := by simp [State.withUnseen, h]

/-! ### The shapes of the instructions: each run is the same, with the values still at the end of the queue -/

@[simp] theorem readVal_addInputs (k : Nat) (m : AddrMode) : readVal (s.addInputs e) k m = readVal s k m := rfl

@[simp] theorem writeAddr_addInputs (k : Nat) (m : AddrMode) : writeAddr (s.addInputs e) k m = writeAddr s k m := rfl

theorem memWrite_addInputs (d v : Word) : memWrite (s.addInputs e) d v = State.addInputs e <$> memWrite s d v := by
  simp only [memWrite, apply_ite (State.addInputs e <$> ·)]
  rfl

/-- The end of an instruction's run, with the values at the end of its queue. -/
def endAddInputs (e : List Word) : Completion × State → Completion × State := Prod.map id (State.addInputs e)

theorem storeBinary_addInputs (f : Word → Word → Word) (m1 m2 m3 : AddrMode) :
    storeBinary f m1 m2 m3 (s.addInputs e) = endAddInputs e <$> storeBinary f m1 m2 m3 s := by
  simp only [storeBinary, readVal_addInputs, writeAddr_addInputs, memWrite_addInputs, map_bind, bind_map_left]
  rfl

theorem jumpIf_addInputs (c : Word → Bool) (m1 m2 : AddrMode) :
    jumpIf c m1 m2 (s.addInputs e) = endAddInputs e <$> jumpIf c m1 m2 s := by
  simp only [jumpIf, readVal_addInputs, map_bind, State.ite_setIp_advance]
  rfl

theorem outputFrom_addInputs (m1 : AddrMode) :
    outputFrom m1 (s.addInputs e) = endAddInputs e <$> outputFrom m1 s := by
  simp only [outputFrom, readVal_addInputs, map_bind]
  rfl

theorem adjustBase_addInputs (m1 : AddrMode) :
    adjustBase m1 (s.addInputs e) = endAddInputs e <$> adjustBase m1 s := by
  simp only [adjustBase, readVal_addInputs, map_bind]
  rfl

/-- R140: IN takes the front of the queue, so the values at its end matter only where it finds it empty. -/
theorem inputTo_addInputs (m1 : AddrMode) :
    inputTo m1 s = .error (.raise .inputUnderflow s.ip) ∨
    inputTo m1 (s.addInputs e) = endAddInputs e <$> inputTo m1 s := by
  cases hd : writeAddr s 1 m1 with
  | error x =>
    right
    simp [inputTo, hd]
  | ok d =>
    cases hq : s.inq with
    | nil => exact .inl (inputTo_stop_queue (writeAddr_ok_iff.mp hd) hq)
    | cons v rest =>
      have hq' : (s.addInputs e).inq = v :: (rest ++ e) := congrArg (· ++ e) hq
      have hset : (s.addInputs e).setInq (rest ++ e) = (s.setInq rest).addInputs e := rfl
      rw [inputTo_of_dequeued (writeAddr_ok_iff.mp hd) hq,
        inputTo_of_dequeued (writeAddr_ok_iff.mp ((writeAddr_addInputs 1 m1).trans hd)) hq', hset, memWrite_addInputs,
        map_bind, bind_map_left]
      exact .inr rfl

/-! ### Every instruction -/

/-- The run of an instruction, before `settle` makes an outcome of it. -/
def instrRun : Instr → State → Except Stop (Completion × State)
  | .add m1 m2 m3 => storeBinary aluAdd m1 m2 m3
  | .mul m1 m2 m3 => storeBinary aluMul m1 m2 m3
  | .inp m1 => inputTo m1
  | .out m1 => outputFrom m1
  | .jnz m1 m2 => jumpIf wordTrue m1 m2
  | .jz m1 m2 => jumpIf (fun a => !wordTrue a) m1 m2
  | .lt m1 m2 m3 => storeBinary cmpLt m1 m2 m3
  | .eq m1 m2 m3 => storeBinary cmpEq m1 m2 m3
  | .arb m1 => adjustBase m1
  | .hlt => fun s => .ok (.halt, s)

theorem exec_eq_settle (i : Instr) (s : State) : exec i s = settle s (instrRun i s) := by
  cases i <;> rfl

theorem instrRun_addInputs (i : Instr) :
    instrRun i s = .error (.raise .inputUnderflow s.ip) ∨
    instrRun i (s.addInputs e) = endAddInputs e <$> instrRun i s := by
  cases i with
  | add | mul | lt | eq => exact .inr (storeBinary_addInputs ..)
  | jnz | jz => exact .inr (jumpIf_addInputs ..)
  | inp => exact inputTo_addInputs _
  | out => exact .inr (outputFrom_addInputs _)
  | arb => exact .inr (adjustBase_addInputs _)
  | hlt => exact .inr rfl

/-- A run ends no call: `settle` does. -/
theorem instrRun_busy {i : Instr} {c : Completion} (h : instrRun i s = .ok (c, t)) : t.busy = s.busy := by
  cases i with
  | add | mul | lt | eq =>
    obtain ⟨a, b, d, -, -, -, -, hr⟩ := storeBinary_ok h
    cases hr
    rfl
  | jnz | jz =>
    obtain ⟨a, x, -, -, hr⟩ := jumpIf_ok h
    cases hr
    rw [State.ite_setIp_advance, State.setIp_busy]
  | inp =>
    obtain ⟨d, v, rest, -, -, -, hr⟩ := inputTo_ok h
    cases hr
    rfl
  | out =>
    obtain ⟨a, -, hr⟩ := outputFrom_ok h
    cases hr
    rfl
  | arb =>
    obtain ⟨a, -, hr⟩ := adjustBase_ok h
    cases hr
    rfl
  | hlt =>
    cases h
    rfl

/-- R185: the end of a call empties the queue, so an instruction answers the same state where it ends the call, and the
same with the values still at the end of the queue where it goes on; unless it finds the queue empty. -/
theorem exec_addInputs {i : Instr} (hb : s.busy = true) (h : exec i s = .next t) :
    t = s.takeFault .inputUnderflow s.ip ∨ exec i (s.addInputs e) = .next (t.withUnseen e) := by
  rw [exec_eq_settle] at h ⊢
  rcases instrRun_addInputs (e := e) i with hunder | hrun
  · rw [hunder] at h
    cases h
    exact .inl rfl
  · rw [hrun]
    right
    rcases settle_next h with hr | ⟨u, hr, rfl⟩ | ⟨u, hr, rfl⟩ | ⟨k, x, hr, rfl⟩ <;> rw [hr]
    · rw [State.withUnseen_of_busy ((instrRun_busy hr).trans hb)]
      rfl
    · rfl
    · rfl
    · rfl

/-! ### A step of a call, and a whole call -/

/-- R180: the fetch does not look at the queue, so a step is as the instruction it runs. -/
theorem step_addInputs (hb : s.busy = true) (h : step s = .next t) :
    t = s.takeFault .inputUnderflow s.ip ∨ step (s.addInputs e) = .next (t.withUnseen e) := by
  have hfetch : fetch (s.addInputs e) = fetch s := rfl
  rcases step_cases h with ⟨-, hr, i, hf, hx⟩ | ⟨-, hr, k, x, hf, rfl⟩ | ⟨hidle, -⟩
  · rw [step_of_fetch_ok (s := s.addInputs e) hb hr (hfetch.trans hf)]
    exact exec_addInputs hb hx
  · rw [step_busy (s := s.addInputs e) hb hr, stepInstr, hfetch, hf]
    exact .inr rfl
  · simp [hb] at hidle

/-- R185, R189: a call that returns without InputUnderflow returns in the same state with more values in its queue. -/
theorem runCall_withUnseen {n : Nat} (hk : t.fk ≠ some .inputUnderflow) (h : runCall n s = some t) :
    runCall n (s.withUnseen e) = some t := by
  refine runCall_induction (motive := fun n s => runCall n (s.withUnseen e) = some t) ?idle ?step h
  case idle =>
    intro n hb
    rw [State.withUnseen_of_idle hb, runCall_idle n hb]
  case step =>
    intro n s u hb hu hrun ih
    rcases step_addInputs hb hu with rfl | hstep
    · rw [runCall_idle n rfl] at hrun
      cases hrun
      exact absurd rfl hk
    · rw [State.withUnseen_of_busy hb, runCall_busy (s := s.addInputs e) n hb hstep, ih]

/-- Settles O51: the two calls run in lockstep, and no call is in progress where they return. -/
theorem extraInputsAreNeverSeen : Obligations.ExtraInputsAreNeverSeen := by
  intro n s t extra hb h hk
  have hrun := runCall_withUnseen (e := extra) hk h
  rwa [State.withUnseen_of_busy hb] at hrun

end Sys2Proof.Machine
end

section
/-! SUPPORT. Faults (spec/60_exceptions.md): what a fetch or an instruction raises and with what information, said once;
then the claims about a step that takes a fault, and about an idle machine. -/

namespace Sys2Proof.Machine

variable {i : Instr} {s t : State} {k : FaultKind} {x : Word}

/-! ### Faults are precise -/

/-- R180: a step of a call is defined in `Running` only. -/
theorem running_of_call_step (hb : s.busy = true) (h : step s = .next t) : s.es = .running := by
  rcases step_cases h with ⟨-, hr, -⟩ | ⟨-, hr, -⟩ | ⟨hidle, -⟩
  · exact hr
  · exact hr
  · simp [hb] at hidle

/-- Settles O31: of the four ways in which a step of a call can end, only a fault leaves the machine Faulted. -/
theorem faultsArePrecise : Obligations.FaultsArePrecise := by
  intro s t hb h hes
  rcases call_step_transitions hb (running_of_call_step hb h) h with
    ⟨-, he⟩ | ⟨-, he, -⟩ | ⟨-, he, -⟩ | ⟨-, -, hfault⟩
  · simp [he] at hes
  · simp [he] at hes
  · simp [he] at hes
  · exact hfault

/-! ### The faults of the fetch and of the decode -/

/-- R218: a fault of the fetch or of the decode is taken like an instruction's own. -/
theorem step_of_fetch_raise (hb : s.busy = true) (hr : s.es = .running) (hf : fetch s = .error (.raise k x)) :
    step s = .next (s.afterFault k x) := by
  rw [step_busy hb hr, stepInstr, hf]
  rfl

theorem step_of_fetch_stuck {r : Fault} (hb : s.busy = true) (hr : s.es = .running)
    (hf : fetch s = .error (.stuck r)) : step s = .fault r := by
  rw [step_busy hb hr, stepInstr, hf]
  rfl

theorem fetch_of_memRead_error {e : Stop} (h : memRead s s.ip = .error e) : fetch s = .error e := by
  rw [fetch, h, except_error_bind]

/-- Settles O35: the fetch raises or stops where its read of `ip` does, and raises the fault of the decoder where the
word is held; the step takes what the fetch raised. -/
theorem fetchAndDecodeFaults : Obligations.FetchAndDecodeFaults := by
  intro s hb hr
  refine ⟨fun h => ?absent, fun raw h hd => ?invalid, fun raw h hd => ?reserved, fun h => ?forbidden⟩
  case absent => exact step_of_fetch_raise hb hr (fetch_of_memRead_error (memRead_memoryFault_iff.mpr ⟨rfl, h⟩))
  case invalid => exact step_of_fetch_raise hb hr (fetch_of_decode_error h hd)
  case reserved => exact step_of_fetch_raise hb hr (fetch_of_decode_error h hd)
  case forbidden => exact step_of_fetch_stuck hb hr (fetch_of_memRead_error (memRead_negativeAddress_iff.mpr ⟨rfl, h⟩))

/-! ### What raises each fault -/

/-- R210, R217 (1) to (3): the ways in which a fetch raises a fault. -/
theorem fetch_raise (h : fetch s = .error (.raise k x)) :
    (k = .memoryFault ∧ s.cell x = none) ∨
    ∃ f, k = decodeFaultKind f ∧ s.cell s.ip = some x ∧ decode x = .error f := by
  rcases fetch_error h with hread | ⟨raw, f, hraw, hd, e⟩
  · obtain ⟨hk, rfl, -, hc⟩ := memRead_raise_iff.mp hread
    exact .inl ⟨hk, hc⟩
  · cases e
    exact .inr ⟨f, rfl, (memRead_ok hraw).2, hd⟩

/-- R210: the ways in which an instruction raises a fault, once fetched. -/
inductive RaiseCase : Instr → State → FaultKind → Word → Prop where
  | absent {i : Instr} {s : State} {x : Word} (hc : s.cell x = none) : RaiseCase i s .memoryFault x
  | underflow {m : AddrMode} {s : State} (hq : s.inq = []) : RaiseCase (.inp m) s .inputUnderflow s.ip
  | capacity {i : Instr} {s : State} {x : Word} (hi : (∃ m3, StoresTo i m3) ∨ ∃ m, i = .inp m)
      (hc : s.cell x = none) : RaiseCase i s .capacityFault x

theorem ReadStopsAt.holds_there {P : State → Word → Prop} {n : Nat} {m : AddrMode} (h : ReadStopsAt P s n m x) :
    P s x := by
  rcases h with ⟨-, hp⟩ | ⟨w, -, h⟩
  · exact hp
  · cases m with
    | position => exact h.2
    | immediate => exact h.elim
    | relative => exact h.2

theorem RaiseCase.of_readVal {n : Nat} {m : AddrMode} (h : readVal s n m = .error (.raise k x)) :
    RaiseCase i s k x := by
  obtain ⟨-, hraise, -⟩ := readOperandByMode s n m
  obtain ⟨rfl, hstop⟩ := (hraise k x).mp h
  exact .absent hstop.holds_there.2

theorem RaiseCase.of_writeAddr {n : Nat} {m : AddrMode} (h : writeAddr s n m = .error (.raise k x)) :
    RaiseCase i s k x := by
  obtain ⟨-, hraise, -⟩ := destinationAddressByMode s n m
  obtain ⟨rfl, -, -, hc⟩ := (hraise k x).mp h
  exact .absent hc

/-- R53: the one fault of a write. -/
theorem memWrite_raise {d v : Word} (h : memWrite s d v = .error (.raise k x)) :
    k = .capacityFault ∧ s.cell x = none := by
  rcases memWrite_error h with ⟨e, -⟩ | ⟨e, -, hc, -⟩ <;> cases e
  exact ⟨rfl, hc⟩

theorem RaiseCase.of_storeBinary {f : Word → Word → Word} {m1 m2 m3 : AddrMode} (hi : StoresTo i m3)
    (h : storeBinary f m1 m2 m3 s = .error (.raise k x)) : RaiseCase i s k x := by
  rcases except_bind_error h with h | ⟨a, -, h⟩
  · exact .of_readVal h
  rcases except_bind_error h with h | ⟨b, -, h⟩
  · exact .of_readVal h
  rcases except_bind_error h with h | ⟨d, -, h⟩
  · exact .of_writeAddr h
  rcases except_bind_error h with h | ⟨u, -, h⟩
  · obtain ⟨rfl, hc⟩ := memWrite_raise h
    exact .capacity (.inl ⟨m3, hi⟩) hc
  · cases h

theorem RaiseCase.of_jumpIf {c : Word → Bool} {m1 m2 : AddrMode} (h : jumpIf c m1 m2 s = .error (.raise k x)) :
    RaiseCase i s k x := by
  rcases except_bind_error h with h | ⟨a, -, h⟩
  · exact .of_readVal h
  rcases except_bind_error h with h | ⟨d, -, h⟩
  · exact .of_readVal h
  · cases h

theorem RaiseCase.of_outputFrom {m1 : AddrMode} (h : outputFrom m1 s = .error (.raise k x)) : RaiseCase i s k x := by
  rcases except_bind_error h with h | ⟨a, -, h⟩
  · exact .of_readVal h
  · cases h

theorem RaiseCase.of_adjustBase {m1 : AddrMode} (h : adjustBase m1 s = .error (.raise k x)) : RaiseCase i s k x := by
  rcases except_bind_error h with h | ⟨a, -, h⟩
  · exact .of_readVal h
  · cases h

theorem RaiseCase.of_inputTo {m1 : AddrMode} (h : inputTo m1 s = .error (.raise k x)) :
    RaiseCase (.inp m1) s k x := by
  cases hd : writeAddr s 1 m1 with
  | error e =>
    rw [inputTo_stop_dest hd] at h
    cases h
    exact .of_writeAddr hd
  | ok d =>
    have hd' : DestIs s 1 m1 d := writeAddr_ok_iff.mp hd
    cases hq : s.inq with
    | nil =>
      rw [inputTo_stop_queue hd' hq] at h
      cases h
      exact .underflow hq
    | cons v rest =>
      rw [inputTo_of_dequeued hd' hq] at h
      rcases except_bind_error h with h | ⟨u, -, h⟩
      · obtain ⟨rfl, hc⟩ := memWrite_raise h
        exact .capacity (.inr ⟨m1, rfl⟩) hc
      · cases h

/-- The inversion of an instruction's run that raises. -/
theorem raiseCase_of_instrRun (h : instrRun i s = .error (.raise k x)) : RaiseCase i s k x := by
  cases i with
  | add m1 m2 m3 => exact .of_storeBinary (BinaryOf.add m1 m2 m3).storesTo h
  | mul m1 m2 m3 => exact .of_storeBinary (BinaryOf.mul m1 m2 m3).storesTo h
  | lt m1 m2 m3 => exact .of_storeBinary (BinaryOf.lt m1 m2 m3).storesTo h
  | eq m1 m2 m3 => exact .of_storeBinary (BinaryOf.eq m1 m2 m3).storesTo h
  | jnz | jz => exact .of_jumpIf h
  | inp => exact .of_inputTo h
  | out => exact .of_outputFrom h
  | arb => exact .of_adjustBase h
  | hlt => cases h

/-- The state after a fault records its kind and its information. -/
theorem State.afterFault_eq_takeFault_inj {k' : FaultKind} {x' : Word} (h : s.afterFault k x = s.takeFault k' x') :
    k = k' ∧ x = x' :=
  ⟨Option.some.inj (congrArg State.fk h), congrArg State.fi h⟩

/-- R218: an instruction that leaves the state after a fault has raised that fault: one that proceeds leaves the call in
progress, and the two other ends of a call do not leave `Faulted`. -/
theorem instrRun_of_exec_afterFault (hb : s.busy = true) (h : exec i s = .next (s.afterFault k x)) :
    instrRun i s = .error (.raise k x) := by
  rw [exec_eq_settle] at h
  rcases settle_next h with hr | ⟨u, -, e⟩ | ⟨u, -, e⟩ | ⟨k', x', hr, e⟩
  · have hbusy : false = s.busy := instrRun_busy hr
    simp [hb] at hbusy
  · cases congrArg State.es e
  · cases congrArg State.es e
  · obtain ⟨rfl, rfl⟩ := State.afterFault_eq_takeFault_inj e
    exact hr

/-- A step of a call takes a fault that its fetch raised, or that the fetched instruction did. -/
theorem call_step_raise (hb : s.busy = true) (h : step s = .next (s.afterFault k x)) :
    fetch s = .error (.raise k x) ∨ ∃ i, fetch s = .ok i ∧ instrRun i s = .error (.raise k x) := by
  rcases step_cases h with ⟨-, -, i, hf, hx⟩ | ⟨-, -, k', x', hf, e⟩ | ⟨hidle, -⟩
  · exact .inr ⟨i, hf, instrRun_of_exec_afterFault hb hx⟩
  · obtain ⟨rfl, rfl⟩ := State.afterFault_eq_takeFault_inj e
    exact .inl hf
  · simp [hb] at hidle

/-- Settles O32: the fault is one of the fetch (`fetch_raise`) or one of the fetched instruction (`RaiseCase`), which is
not HLT, since HLT raises none. -/
theorem raisersOfEachFault : Obligations.RaisersOfEachFault := by
  intro s k x hb _ h
  rcases call_step_raise hb h with hf | ⟨i, hf, hrun⟩
  · rcases fetch_raise hf with ⟨rfl, hc⟩ | ⟨f, rfl, hc, hd⟩
    · simp [hf, hc]
    · cases f with
      | invalidOpcode | reservedMode => simp [hf, hc, hd, decodeFaultKind]
  · have hne : i ≠ .hlt := by
      rintro rfl
      cases hrun
    cases raiseCase_of_instrRun hrun with
    | absent hc => simp [hf, hne, hc]
    | underflow hq => simp [hf, hq]
    | capacity hi hc => simp [hf, hne, hc, hi]

/-! ### The idle machine -/

/-- Settles O36: an idle step is the host's move, by whether a transaction is to come. -/
theorem idleMachineWaitsForHost : Obligations.IdleMachineWaitsForHost := by
  intro s hb
  refine ⟨fun hp => ?_, fun tr rest hp => ?_⟩
  · rw [step_idle hb, hostMove_of_pending_nil hp]
  · rw [step_idle hb, hostMove_of_pending_cons hp]

/-- Settles O44: a `Peek` of an idle machine is a response and nothing else, and each element answers for itself. -/
theorem peekIsReadOnly : Obligations.PeekIsReadOnly :=
  fun _ hb => ⟨fun item => transact_peek item hb, fun _ => rfl, rfl, rfl, rfl, rfl, rfl, rfl, rfl⟩

end Sys2Proof.Machine
end

section
/-! SUPPORT. The family of reset and hazards (spec/70_reset_and_hazards.md): the one stop of a step, a refused negative
address, said once for every operation and kept by every bind; then the claims about progress and the empty program. -/

namespace Sys2Proof.Machine

variable {s : State} {α β : Type}

/-! ### What has no meaning -/

/-- R55: a run in `s` is stuck at most at an address that the policy refuses (log 8); a fault that it raises is
a next state (R218). -/
def StuckOnlyAtForbidden (s : State) (run : Except Stop α) : Prop :=
  ∀ r, run = .error (.stuck r) → ∃ x, r = .negativeAddress x ∧ s.Forbidden x

namespace StuckOnlyAtForbidden

theorem ok (a : α) : StuckOnlyAtForbidden s (.ok a) := nofun

theorem raise (k : FaultKind) (x : Word) : StuckOnlyAtForbidden s (.error (.raise k x) : Except Stop α) := nofun

theorem bind {run : Except Stop α} {f : α → Except Stop β} (hrun : StuckOnlyAtForbidden s run)
    (hf : ∀ a, StuckOnlyAtForbidden s (f a)) : StuckOnlyAtForbidden s (run >>= f) := by
  intro r h
  rcases except_bind_error h with h | ⟨a, -, h⟩
  · exact hrun r h
  · exact hf a r h

/-! ### The operations -/

theorem memRead (a : Word) : StuckOnlyAtForbidden s (Machine.memRead s a) :=
  fun _ h => ⟨a, memRead_stuck_iff.mp h⟩

theorem memWrite (a v : Word) : StuckOnlyAtForbidden s (Machine.memWrite s a v) := by
  intro r h
  rcases memWrite_error h with ⟨e, hr⟩ | ⟨e, -⟩ <;> cases e
  exact ⟨a, rfl, refuses_eq_true_iff.mp hr⟩

theorem readVal (k : Nat) (m : AddrMode) : StuckOnlyAtForbidden s (Machine.readVal s k m) := by
  intro r h
  obtain ⟨-, -, hstuck⟩ := readOperandByMode s k m
  obtain ⟨x, hr, hstop⟩ := (hstuck r).mp h
  exact ⟨x, hr, hstop.holds_there⟩

theorem writeAddr (k : Nat) (m : AddrMode) : StuckOnlyAtForbidden s (Machine.writeAddr s k m) := by
  intro r h
  obtain ⟨-, -, hstuck⟩ := destinationAddressByMode s k m
  obtain ⟨x, hr, -, hforbidden⟩ := (hstuck r).mp h
  exact ⟨x, hr, hforbidden⟩

theorem fetch : StuckOnlyAtForbidden s (Machine.fetch s) := by
  refine (memRead s.ip).bind fun raw => ?_
  cases decode raw with
  | ok i => exact ok i
  | error f => exact raise _ raw

/-! ### The instructions, by their shapes -/

theorem storeBinary (f : Word → Word → Word) (m1 m2 m3 : AddrMode) :
    StuckOnlyAtForbidden s (Machine.storeBinary f m1 m2 m3 s) :=
  (readVal 1 m1).bind fun _ => (readVal 2 m2).bind fun _ => (writeAddr 3 m3).bind fun _ =>
    (memWrite _ _).bind fun _ => ok _

theorem jumpIf (c : Word → Bool) (m1 m2 : AddrMode) : StuckOnlyAtForbidden s (Machine.jumpIf c m1 m2 s) :=
  (readVal 1 m1).bind fun _ => (readVal 2 m2).bind fun _ => ok _

theorem inputTo (m1 : AddrMode) : StuckOnlyAtForbidden s (Machine.inputTo m1 s) := by
  refine (writeAddr 1 m1).bind fun d => ?_
  cases s.inq with
  | nil => exact raise _ _
  | cons v rest =>
    have hwrite : StuckOnlyAtForbidden s (Machine.memWrite (s.setInq rest) d v) := memWrite (s := s.setInq rest) d v
    exact hwrite.bind fun _ => ok _

theorem outputFrom (m1 : AddrMode) : StuckOnlyAtForbidden s (Machine.outputFrom m1 s) :=
  (readVal 1 m1).bind fun _ => ok _

theorem adjustBase (m1 : AddrMode) : StuckOnlyAtForbidden s (Machine.adjustBase m1 s) :=
  (readVal 1 m1).bind fun _ => ok _

theorem instrRun (i : Instr) : StuckOnlyAtForbidden s (Machine.instrRun i s) := by
  cases i with
  | add | mul | lt | eq => exact storeBinary _ _ _ _
  | jnz | jz => exact jumpIf _ _ _
  | inp => exact inputTo _
  | out => exact outputFrom _
  | arb => exact adjustBase _
  | hlt => exact ok _

/-- R181, R218: what completes and what raises has a next state, so only a stuck run has none. -/
theorem settle {run : Except Stop (Completion × State)} (h : StuckOnlyAtForbidden s run) :
    (∃ t, Machine.settle s run = .next t) ∨
    ∃ x, s.Forbidden x ∧ Machine.settle s run = .fault (.negativeAddress x) := by
  match run with
  | .ok (.proceed, _) | .ok (.yield, _) | .ok (.halt, _) | .error (.raise _ _) => exact .inl ⟨_, rfl⟩
  | .error (.stuck r) =>
    obtain ⟨x, rfl, hx⟩ := h r rfl
    exact .inr ⟨x, hx, rfl⟩

end StuckOnlyAtForbidden

/-! ### Progress -/

/-- R180: the fetch and the instruction are one run, settled once. -/
theorem stepInstr_eq_settle (s : State) : stepInstr s = settle s (fetch s >>= fun i => instrRun i s) := by
  unfold stepInstr
  cases fetch s with
  | ok i => exact exec_eq_settle i s
  | error e => rfl

/-- Settles O38: an idle machine always moves; in a call the invariant gives `Running`, so the step is the run of
`stepInstr_eq_settle`, which is stuck only at a forbidden address. -/
theorem stepStopsOnlyAtRefusedAddress : Obligations.StepStopsOnlyAtRefusedAddress := by
  intro s hinv
  cases hb : s.busy with
  | false => exact .inl ⟨_, step_idle hb⟩
  | true =>
    rw [step_busy hb (hinv.callRunning hb), stepInstr_eq_settle]
    have hrun : StuckOnlyAtForbidden s (fetch s >>= fun i => instrRun i s) :=
      StuckOnlyAtForbidden.fetch.bind fun i => .instrRun i
    refine hrun.settle.imp_right ?_
    rintro ⟨x, ⟨hpolicy, hneg⟩, hstop⟩
    exact ⟨hpolicy, x, hneg, hstop⟩

/-! ### The empty program -/

/-- R254: the empty program is within every bound. -/
theorem transact_construct_nil (hb : s.busy = false) :
    transact (.construct []) s = (s.construct []).respond .constructed := by
  have hwf : programWf s.cfg [] = true := programWf_iff.mpr ⟨by simp, by simp, by simp⟩
  rw [transact_construct [] hb, if_pos hwf]

/-- R250: the entry point of the empty program is accessible under either policy, and no cell is there. -/
theorem State.absent_construct_nil (s : State) : (s.construct []).Absent 0 := ⟨.inr (by decide), rfl⟩

/-- Settles O41: the call begins at address 0 (R251), where the fetch finds no cell. -/
theorem emptyProgramFaultsAtFirstFetch : Obligations.EmptyProgramFaultsAtFirstFetch := by
  intro s q hb hq
  refine ⟨_, transact_construct_nil hb, rfl, fun _ => rfl, ?_⟩
  rw [executeStartsCall ((s.construct []).respond .constructed) q rfl (.inl rfl) (batchWf_iff.mp hq)]
  obtain ⟨habsent, -⟩ := fetchAndDecodeFaults (((s.construct []).respond .constructed).beginCall q) rfl rfl
  exact ⟨_, habsent s.absent_construct_nil, rfl, rfl, rfl, rfl⟩

end Sys2Proof.Machine
end
